-- ==== Sys2Proof/Word.lean ====
section
/-! DEFINITION. The byte and the byte sequence (spec/00_scope.md R10, R12). -/

namespace Sys2Proof

/-- A byte: 8 bits, all 256 values allowed (R10). -/
abbrev Byte := BitVec 8

/-- A finite sequence of bytes, `B[0]` first (R12).  Each sequence is its own space of bytes (R29). -/
abbrev Bytes := List Byte

end Sys2Proof
end

