-- ==== Sys2Proof/Config.lean ====
section
/-! DEFINITION. The parameters: those the spec fixes (spec/00_scope.md R7, spec/40_crc4.md R62) and the two it leaves
open (R9), which an instance of the block carries as `Capacity`. -/

namespace Sys2Proof.Config

/-- FLAG, the constant marker of a valid packet start (R7). -/
abbrev flag : BitVec 3 := 0b101#3

/-- MAX_NAME, the largest name length ENCODE accepts (R7). -/
abbrev maxName : Nat := 15

/-- MAX_CHUNK, the largest text chunk of one packet (R7). -/
abbrev maxChunk : Nat := 31

/-- The transport bound of the `name` operand (R19). -/
abbrev maxNameOperand : Nat := 255

/-- The CRC register's initial value (R62, R22). -/
abbrev crcInit : BitVec 4 := 0x0#4

/-- The reflected form of the polynomial x^4 + x + 1 (R62). -/
abbrev crcPoly : BitVec 4 := 0xC#4

/-- The open parameters of R9: MAX_TEXT_LEN and MAX_BUF_LEN.  "The model takes them as arguments": they are held beside the
state, no step changes them, and a statement about every state holds for every value of them.  DESIGN CHOICE (log entry 19): the
two are independent.  R27 bounds every length by MAX_BUF_LEN and R19 admits texts up to MAX_TEXT_LEN, and no rule relates them;
where maxTextLen exceeds maxBufLen, CHUNK's L and its offsets are bounded by maxTextLen. -/
structure Capacity where
  /-- MAX_TEXT_LEN: the largest text length ENCODE and CHUNK accept. -/
  maxTextLen : Nat
  /-- MAX_BUF_LEN: the largest sequence DECODE and CRC4 accept and ENCODE may produce. -/
  maxBufLen : Nat
deriving DecidableEq, Repr

/-- The capacities of `State.reset`.  DESIGN CHOICE (log entry 2, unsafe): R9 gives no value. -/
def resetCapacity : Capacity := { maxTextLen := 65535, maxBufLen := 1048575 }

end Sys2Proof.Config
end

