-- ==== Sys2Proof/Syntax.lean ====
section
/-! DEFINITION. The six operations with their operands (spec/10_state.md R19, spec/30_encoding.md R56), the form in which a
request is encoded (R61), the pseudo-operations (R60) and the names under which a request is rejected. -/

namespace Sys2Proof

/-- One operation with its operands: a constructor per row of spec/opcode_table.json.  A constructor holds exactly the request
fields R19 lists for it, so "the fields an op does not list are absent". -/
inductive Instr where
  /-- CRC4 `data` (R65) -/
  | crc4 (data : Bytes)
  /-- HDR_PACK `f_flag`, `f_name_len`, `f_text_len`, `f_crc4` (R68) -/
  | hdrPack (flag : BitVec 3) (nameLen : BitVec 4) (textLen : BitVec 5) (crc : BitVec 4)
  /-- HDR_UNPACK `hdr` (R69) -/
  | hdrUnpack (hdr : BitVec 16)
  /-- CHUNK `text` (R75) -/
  | chunk (text : Bytes)
  /-- ENCODE `name`, `text` (R80) -/
  | encode (name text : Bytes)
  /-- DECODE `buf` (R94) -/
  | decode (buf : Bytes)
deriving DecidableEq, Repr

/-- A pseudo-operation (R60). -/
inductive Pseudo where
  /-- PREHDR n, t: the pre-CRC header -/
  | prehdr (n : BitVec 4) (t : BitVec 5)
  /-- FINHDR n, t, c: the final header -/
  | finhdr (n : BitVec 4) (t : BitVec 5) (c : BitVec 4)
  /-- CHECK b: DECODE whose results the host ignores -/
  | check (b : Bytes)
deriving DecidableEq, Repr

/-- One operand value of an encoded request (R61): a number for a 3- to 5-bit field, the two bytes of `hdr` (D26), or a byte
sequence "given with its length". -/
inductive OperandValue where
  | number (v : Nat)
  | bytePair (b0 b1 : Byte)
  | sequence (len : Nat) (bytes : Bytes)
deriving DecidableEq, Repr

/-- An encoded request: "its cmd byte followed by its operand values in the order of the table in rule R56" (R61). -/
structure EncodedRequest where
  cmd : Byte
  operands : List OperandValue
deriving DecidableEq, Repr

/-- The names of the request's operands (R19). -/
inductive OperandName where
  | data | fFlag | fNameLen | fTextLen | fCrc4 | hdr | name | text | buf
deriving DecidableEq, Repr

/-- Why the decoder rejects an encoded request. -/
inductive DecodeError where
  /-- cmd is one of the reserved values 0x06 to 0xFF (R57): the block answers it with IllegalOp -/
  | reservedCmd (cmd : Byte)
  /-- the operand values are not those R56 lists for this cmd, in number, kind and order -/
  | wrongOperands (cmd : Byte)
  /-- a number does not fit its field's width (R19, R59) -/
  | fieldTooWide (operand : OperandName)
  /-- the length given with a byte sequence is not the sequence's length (R61) -/
  | lengthMismatch (operand : OperandName)
  /-- a `name` operand of more than 255 bytes, which the transport does not carry (R19) -/
  | nameBeyondTransport
deriving DecidableEq, Repr

end Sys2Proof
end

