-- ==== Sys2Proof/WellFormed.lean ====
section
/-! DEFINITION. The one check on an instruction that its types do not already make (spec/10_state.md R19). -/

namespace Sys2Proof

/-- The operand bounds of R19 that do not depend on the open capacities: every field has its width by its type, and the `name`
operand carries 0 to 255 bytes. -/
def Instr.wellFormed : Instr → Bool
  | .crc4 _ => true
  | .hdrPack _ _ _ _ => true
  | .hdrUnpack _ => true
  | .chunk _ => true
  | .encode name _ => decide (name.length ≤ Config.maxNameOperand)
  | .decode _ => true

end Sys2Proof
end

