-- ==== Sys2Proof/Decode.lean ====
section
/-! DEFINITION. The request decoder, total on any encoded request and rejecting by name; the encoder, written from the same table
(spec/30_encoding.md R56, R57, R61); the expansion of the pseudo-operations (R60); and the opcode table's words. -/

namespace Sys2Proof

/-- A number operand as a field of width `w`: "a number that does not fit the field's width" is refused (R59). -/
def fieldOf (w : Nat) (operand : OperandName) (v : Nat) : Except DecodeError (BitVec w) :=
  if v < 2 ^ w then .ok (BitVec.ofNat w v) else .error (.fieldTooWide operand)

/-- A byte-sequence operand with the length given beside it (R61). -/
def sequenceOf (operand : OperandName) (len : Nat) (bytes : Bytes) : Except DecodeError Bytes :=
  if bytes.length = len then .ok bytes else .error (.lengthMismatch operand)

/-- `hdr = {hb0, hb1}` (R19, R69). -/
def hdrOfBytes (hb0 hb1 : Byte) : BitVec 16 := hb0 ++ hb1

/-- CRC4: one byte sequence. -/
def decodeCrc4 : List OperandValue → Except DecodeError Instr
  | [.sequence n d] => do
    let data ← sequenceOf .data n d
    .ok (.crc4 data)
  | _ => .error (.wrongOperands 0x00#8)

/-- HDR_PACK: four field values. -/
def decodeHdrPack : List OperandValue → Except DecodeError Instr
  | [.number f, .number n, .number t, .number c] => do
    let flag ← fieldOf 3 .fFlag f
    let nameLen ← fieldOf 4 .fNameLen n
    let textLen ← fieldOf 5 .fTextLen t
    let crc ← fieldOf 4 .fCrc4 c
    .ok (.hdrPack flag nameLen textLen crc)
  | _ => .error (.wrongOperands 0x01#8)

/-- HDR_UNPACK: the header's two bytes. -/
def decodeHdrUnpack : List OperandValue → Except DecodeError Instr
  | [.bytePair hb0 hb1] => .ok (.hdrUnpack (hdrOfBytes hb0 hb1))
  | _ => .error (.wrongOperands 0x02#8)

/-- CHUNK: one byte sequence. -/
def decodeChunk : List OperandValue → Except DecodeError Instr
  | [.sequence n t] => do
    let text ← sequenceOf .text n t
    .ok (.chunk text)
  | _ => .error (.wrongOperands 0x03#8)

/-- ENCODE: the name, of at most 255 bytes (R19), and the text. -/
def decodeEncode : List OperandValue → Except DecodeError Instr
  | [.sequence n nm, .sequence m t] => do
    let name ← sequenceOf .name n nm
    let text ← sequenceOf .text m t
    if name.length ≤ Config.maxNameOperand then .ok (.encode name text) else .error .nameBeyondTransport
  | _ => .error (.wrongOperands 0x04#8)

/-- DECODE: one byte sequence. -/
def decodeDecode : List OperandValue → Except DecodeError Instr
  | [.sequence n b] => do
    let buf ← sequenceOf .buf n b
    .ok (.decode buf)
  | _ => .error (.wrongOperands 0x05#8)

/-- The decoder: "All eight bits are compared" (R56), and "0x06 to 0xFF are reserved" whatever the operands (R57). -/
def decode (r : EncodedRequest) : Except DecodeError Instr :=
  match r.cmd.toNat with
  | 0 => decodeCrc4 r.operands
  | 1 => decodeHdrPack r.operands
  | 2 => decodeHdrUnpack r.operands
  | 3 => decodeChunk r.operands
  | 4 => decodeEncode r.operands
  | 5 => decodeDecode r.operands
  | _ => .error (.reservedCmd r.cmd)

/-- The encoder (R56, R61). -/
def encode : Instr → EncodedRequest
  | .crc4 data => ⟨0x00#8, [.sequence data.length data]⟩
  | .hdrPack flag nameLen textLen crc =>
    ⟨0x01#8, [.number flag.toNat, .number nameLen.toNat, .number textLen.toNat, .number crc.toNat]⟩
  | .hdrUnpack hdr => ⟨0x02#8, [.bytePair (hdr.extractLsb' 8 8) (hdr.extractLsb' 0 8)]⟩
  | .chunk text => ⟨0x03#8, [.sequence text.length text]⟩
  | .encode name text => ⟨0x04#8, [.sequence name.length name, .sequence text.length text]⟩
  | .decode buf => ⟨0x05#8, [.sequence buf.length buf]⟩

/-- The operations the pseudo-operations stand for (R60). -/
def Pseudo.expand : Pseudo → Instr
  | .prehdr n t => .hdrPack 0b101#3 n t 0x0#4
  | .finhdr n t c => .hdrPack 0b101#3 n t c
  | .check b => .decode b

/-- The operand values of a request with cmd number `n` whose operands are all zero: zero fields, two zero bytes, and byte
sequences of length zero. -/
def zeroOperands : Nat → List OperandValue
  | 0 => [.sequence 0 []]
  | 1 => [.number 0, .number 0, .number 0, .number 0]
  | 2 => [.bytePair 0x00#8 0x00#8]
  | 3 => [.sequence 0 []]
  | 4 => [.sequence 0 [], .sequence 0 []]
  | 5 => [.sequence 0 []]
  | _ => []

/-- The request of a word of spec/opcode_table.json: the table gives a row its cmd byte alone, and every operand is zero
(log entry 13). -/
def tableRequest (w : Nat) : EncodedRequest := ⟨BitVec.ofNat 8 w, zeroOperands (w % 256)⟩

/-- The instruction the decoder reads from an opcode-table word of `nbits` bits: the cmd byte, operands zero.  A word with a bit set
above the cmd byte (or above `nbits`) is no word of the table. -/
def decodeTableWord (nbits w : Nat) : Option Instr :=
  if w < 2 ^ nbits ∧ w < 256 then
    match decode (tableRequest w) with
    | .ok i => some i
    | .error _ => none
  else none

end Sys2Proof
end

