-- ==== Sys2Proof/Machine/State.lean ====
section
/-! DEFINITION. The state: request and response fields (spec/10_state.md R19, R20), the working state of an operation
(R22 to R26) with its initial values (R30), the host's side, the errors (spec/60_exceptions.md R98), and the reasons a step stops. -/

namespace Sys2Proof.Machine

/-- The four header field registers (R23); packed they are the 16-bit `H` (spec/30_encoding.md R47). -/
structure Header where
  flag : BitVec 3
  nameLen : BitVec 4
  textLen : BitVec 5
  crc4 : BitVec 4
deriving DecidableEq, Repr

/-- ENCODE's working registers (R24). -/
structure EncodeRegs where
  /-- `L`, the text length -/
  len : Nat
  /-- `K`, the chunk count -/
  count : Nat
  /-- `i`, the chunk index -/
  idx : Nat
  /-- `S`, the per-packet scratch region -/
  scratch : Bytes
  /-- `c`, the computed CRC of the packet -/
  crc : BitVec 4
  /-- `O`, the output sequence being built -/
  out : Bytes
deriving DecidableEq, Repr

/-- DECODE's working registers (R25). -/
structure DecodeRegs where
  /-- `N`, the buffer length -/
  len : Nat
  /-- `cur`, the cursor -/
  cur : Nat
  /-- `NAME`, the first packet's name bytes -/
  name : Bytes
  /-- `have_name`: NAME has been taken -/
  haveName : Bool
  /-- `ACC`, the accumulated text -/
  acc : Bytes
deriving DecidableEq, Repr

/-- CHUNK's working registers (R26) and the list its pseudocode builds (spec/42_chunker.md R75). -/
structure ChunkRegs where
  /-- `L`, the text length -/
  len : Nat
  /-- `i`, the chunk index -/
  idx : Nat
  /-- `chunks`, the ranges built so far -/
  chunks : List (Nat × Nat)
deriving DecidableEq, Repr

/-- The whole working state of an operation (R22 to R26). -/
structure Working where
  /-- `crc[3:0]`, the CRC engine's register (R22) -/
  crc : BitVec 4
  /-- the header field registers (R23) -/
  hdr : Header
  enc : EncodeRegs
  dec : DecodeRegs
  chk : ChunkRegs
deriving DecidableEq, Repr

/-- The initial working state of every operation (R30).  The header field registers, which R30 leaves "unspecified until written",
and the registers R30 does not list (`L`, `K`, `c`, `N`, `chunks`) hold zero or nothing: DESIGN CHOICE (log entries 3 and 4). -/
def Working.initial : Working where
  crc := 0x0#4
  hdr := { flag := 0, nameLen := 0, textLen := 0, crc4 := 0 }
  enc := { len := 0, count := 0, idx := 0, scratch := [], crc := 0, out := [] }
  dec := { len := 0, cur := 0, name := [], haveName := false, acc := [] }
  chk := { len := 0, idx := 0, chunks := [] }

/-- The response fields (R20).  `none` is the spec's own "unspecified": "must not be read". -/
structure Response where
  status : Option Byte
  crc : Option Byte
  hdrOut : Option (BitVec 16)
  uFlag : Option (BitVec 3)
  uNameLen : Option (BitVec 4)
  uTextLen : Option (BitVec 5)
  uCrc4 : Option (BitVec 4)
  nChunks : Option Nat
  chunks : Option (List (Nat × Nat))
  out : Option Bytes
  dName : Option Bytes
  dText : Option Bytes
deriving DecidableEq, Repr

/-- No response field is specified: before the first response after reset (R30, spec/70_reset_and_hazards.md R112 c). -/
def Response.unspecified : Response where
  status := none
  crc := none
  hdrOut := none
  uFlag := none
  uNameLen := none
  uTextLen := none
  uCrc4 := none
  nChunks := none
  chunks := none
  out := none
  dName := none
  dText := none

/-- The names of the response fields (R20); `ob0` and `ob1` are the two bytes of `hdr_out`. -/
inductive ResponseField where
  | status | crc | hdrOut | ob0 | ob1 | uFlag | uNameLen | uTextLen | uCrc4 | nChunks | chunks | out | dName | dText
deriving DecidableEq, Repr

/-- What the host sees when it reads a response field: bits of the field's width, a natural, a byte sequence or chunk ranges. -/
inductive FieldValue where
  | word (width value : Nat)
  | natural (n : Nat)
  | bytes (bs : Bytes)
  | ranges (rs : List (Nat × Nat))
deriving DecidableEq, Repr

/-- What the host does to the block, one action a step. -/
inductive HostAction where
  /-- issue a request (R19, R41) -/
  | request (r : EncodedRequest)
  /-- issue a request and apply reset before its response is delivered (R112 b) -/
  | requestThenReset (r : EncodedRequest)
  /-- apply reset between two operations (R112) -/
  | reset
  /-- read a field of the response (R20, R103) -/
  | read (f : ResponseField)
deriving DecidableEq, Repr

/-- The machine. -/
structure State where
  /-- MAX_TEXT_LEN and MAX_BUF_LEN, fixed for the instance (R9) -/
  capacity : Config.Capacity
  /-- the request fields, as the host last supplied them (R19); none where no request was issued since reset -/
  request : Option EncodedRequest
  /-- the response fields (R20), replaced by the next response (R21) -/
  response : Response
  /-- the working state (R22 to R26), discarded when an operation ends (R28) -/
  working : Working
  /-- what the host still does, first action first: the rest of its program (R59, R61).  The host's, not the block's -/
  inbox : List HostAction
  /-- what the host's last read of a response field returned.  The host's bookkeeping, not the block's state -/
  hostRead : Option FieldValue
deriving DecidableEq, Repr

/-- An instance of capacity `c` right after reset (R112, R113, R30): no request, every response field unspecified, the initial
working state; and a host that has nothing to do. -/
def State.afterReset (c : Config.Capacity) : State where
  capacity := c
  request := none
  response := Response.unspecified
  working := Working.initial
  inbox := []
  hostRead := none

/-- The machine right after reset, at the capacities of log entry 2. -/
def State.reset : State := State.afterReset Config.resetCapacity

/-- The errors the block reports (R98). -/
inductive ErrorCode where
  | nameEmpty | textEmpty | nameTooLong | invalidBuffer | invalidFlag | invalidCrc | illegalOp
deriving DecidableEq, Repr

/-- The reasons the machine stops with a fault. -/
inductive Fault where
  /-- raised by the host's read of a response field that is unspecified (R103, R112 c, I7, I8); safe -/
  | unspecifiedRead (f : ResponseField)
  /-- raised by a use of MemRead or MemWrite outside the sequence, where R13 leaves it undefined; "never reached" (R13, R96); safe -/
  | undefinedAccess
  /-- raised by DECODE's loop when the cursor is before the end after N div 2 + 1 iterations; never reached (R96); safe -/
  | loopUnfinished
deriving DecidableEq, Repr

/-- The reasons a request gets no meaning: "no response, and the run is marked" (R100). -/
inductive Refusal where
  /-- raised by exec for an instruction without a meaning yet; none is left; safe -/
  | notModelled (mnemonic : String)
  /-- raised by CRC4 for more than MAX_BUF_LEN bytes (R65, R100); safe -/
  | dataBeyondCapacity
  /-- raised by CHUNK and ENCODE for more than MAX_TEXT_LEN text bytes (R75, R80, R100); safe -/
  | textBeyondCapacity
  /-- raised by ENCODE when the output would exceed MAX_BUF_LEN (R80, R100); safe -/
  | outputBeyondCapacity
  /-- raised by DECODE for more than MAX_BUF_LEN bytes (R94, R100); safe -/
  | bufBeyondCapacity
  /-- raised by the issue of a request that is no request of R19: the host's duty of R114 is broken; safe -/
  | malformedRequest (e : DecodeError)
deriving DecidableEq, Repr

/-- How the working steps of an operation end early: an error the block reports, or a fault of the model. -/
inductive Abort where
  | error (e : ErrorCode)
  | fault (f : Fault)
deriving DecidableEq, Repr

/-- The outcome of a step of this machine. -/
abbrev StepOutcome := Host.Outcome State Fault Refusal

end Sys2Proof.Machine
end

