-- ==== Sys2Proof/Machine/Flags.lean ====
section
/-! DEFINITION. The status codes (spec/30_encoding.md R58).  The block has no condition codes and no sticky flags
(spec/10_state.md R21): `status` is its only status indication. -/

namespace Sys2Proof.Machine

/-- The status of an operation that succeeds (R58). -/
def statusOk : Byte := 0x00#8

/-- The status of an operation that fails (R58, R98). -/
def ErrorCode.status : ErrorCode → Byte
  | .nameEmpty => 0x01#8
  | .textEmpty => 0x02#8
  | .nameTooLong => 0x03#8
  | .invalidBuffer => 0x04#8
  | .invalidFlag => 0x05#8
  | .invalidCrc => 0x06#8
  | .illegalOp => 0x07#8

/-- A response with status OK in which no other field is specified yet: each operation adds the fields it sets (R20). -/
def Response.ok : Response := { Response.unspecified with status := some statusOk }

/-- The response of a failed operation: "only `status` is defined" (R20, R103), and nothing else of the error is recorded (R99). -/
def Response.error (e : ErrorCode) : Response := { Response.unspecified with status := some e.status }

end Sys2Proof.Machine
end

