-- ==== Sys2Proof/Machine/Operands.lean ====
section
/-! DEFINITION. The forms an operation's data takes: the header as a 16-bit value and as two bytes (spec/30_encoding.md R47 to R49,
spec/20_memory.md R31), the sizes of a packet (R51), the ranges of a text's chunks (spec/42_chunker.md R73), and the response fields
as the host reads them (spec/10_state.md R20). -/

namespace Sys2Proof.Machine

/-- `H = {flag[2:0], name_len[3:0], text_len[4:0], crc4[3:0]}` (R47). -/
def Header.pack (h : Header) : BitVec 16 := h.flag ++ h.nameLen ++ h.textLen ++ h.crc4

/-- The four fields of a 16-bit header (R69): "pure bit extraction, no validation". -/
def Header.unpack (v : BitVec 16) : Header where
  flag := v.extractLsb' 13 3
  nameLen := v.extractLsb' 9 4
  textLen := v.extractLsb' 4 5
  crc4 := v.extractLsb' 0 4

/-- `H[15:8]`, the byte at the lower offset (R31). -/
def headerByte0 (v : BitVec 16) : Byte := v.extractLsb' 8 8

/-- `H[7:0]` (R31). -/
def headerByte1 (v : BitVec 16) : Byte := v.extractLsb' 0 8

/-- The header as the two bytes a packet starts with (R31, R48). -/
def Header.bytes (h : Header) : Bytes := [headerByte0 h.pack, headerByte1 h.pack]

/-- The header held in the two bytes `b0`, `b1`: `HDR_UNPACK({b0, b1})` (spec/44_decoder.md R86). -/
def Header.ofBytes (b0 b1 : Byte) : Header := Header.unpack (b0 ++ b1)

/-- The size a header declares for its packet: `2 + name_len + text_len` (R51, R88). -/
def Header.packetSize (h : Header) : Nat := 2 + h.nameLen.toNat + h.textLen.toNat

/-- The header ENCODE writes before the CRC is known (spec/43_encoder.md R78). -/
def preCrcHeader (nameLen chunkLen : Nat) : Header where
  flag := Config.flag
  nameLen := BitVec.ofNat 4 nameLen
  textLen := BitVec.ofNat 5 chunkLen
  crc4 := 0x0#4

/-- Header byte1 with its crc4 nibble zeroed (spec/41_header.md R72). -/
def clearCrcNibble (b1 : Byte) : Byte := b1 &&& 0xF0#8

/-- Header byte1 with its crc4 nibble replaced: a masked OR after a masked clear (R71). -/
def setCrcNibble (b1 : Byte) (c : BitVec 4) : Byte := (b1 &&& 0xF0#8) ||| c.setWidth 8

/-- `K = (L + 30) div 31` (R73). -/
def chunkCount (len : Nat) : Nat := (len + (Config.maxChunk - 1)) / Config.maxChunk

/-- `off_i = 31 * i` (R73). -/
def chunkOff (i : Nat) : Nat := Config.maxChunk * i

/-- `len_i = min(31, L - 31 * i)` (R73). -/
def chunkLen (len i : Nat) : Nat := min Config.maxChunk (len - Config.maxChunk * i)

/-- The length of ENCODE's output: `K*(2 + len(name)) + L` (R80, R81). -/
def encodedLength (nameLen textLen : Nat) : Nat := chunkCount textLen * (2 + nameLen) + textLen

/-- The value of a bit field as the host sees it. -/
def wordValue (w : Nat) (v : BitVec w) : FieldValue := .word w v.toNat

/-- A response field as the host reads it (R20); none where it is unspecified.  `ob0` and `ob1` are views of `hdr_out`. -/
def Response.field (r : Response) : ResponseField → Option FieldValue
  | .status => r.status.map (wordValue 8)
  | .crc => r.crc.map (wordValue 8)
  | .hdrOut => r.hdrOut.map (wordValue 16)
  | .ob0 => r.hdrOut.map fun h => wordValue 8 (headerByte0 h)
  | .ob1 => r.hdrOut.map fun h => wordValue 8 (headerByte1 h)
  | .uFlag => r.uFlag.map (wordValue 3)
  | .uNameLen => r.uNameLen.map (wordValue 4)
  | .uTextLen => r.uTextLen.map (wordValue 5)
  | .uCrc4 => r.uCrc4.map (wordValue 4)
  | .nChunks => r.nChunks.map .natural
  | .chunks => r.chunks.map .ranges
  | .out => r.out.map .bytes
  | .dName => r.dName.map .bytes
  | .dText => r.dText.map .bytes

end Sys2Proof.Machine
end

