-- ==== Sys2Proof/Machine/Ops.lean ====
section
/-! DEFINITION. The operations the meanings share: MemRead and MemWrite (spec/00_scope.md R13), `raise` and `return`, the delivery of
a response, and the abort that an error takes (spec/60_exceptions.md R103), the block's one exception entry.  There is no
return from an exception (R104). -/

namespace Sys2Proof.Machine

/-- `MemRead(B, off, n)`: "defined only when off + n ≤ len(B)" (R13). -/
def memRead (B : Bytes) (off n : Nat) : Except Abort Bytes :=
  if off + n ≤ B.length then .ok ((B.drop off).take n) else .error (.fault .undefinedAccess)

/-- `B[off]`, the byte at an offset below len(B) (R12). -/
def readByte (B : Bytes) (off : Nat) : Except Abort Byte :=
  match B[off]? with
  | some b => .ok b
  | none => .error (.fault .undefinedAccess)

/-- `MemWrite(O, off, n, v)` over bytes the sequence already has (R13); appending is `O ++ v`. -/
def memWrite (O : Bytes) (off : Nat) (v : Bytes) : Except Abort Bytes :=
  if off + v.length ≤ O.length then .ok (O.take off ++ v ++ O.drop (off + v.length))
  else .error (.fault .undefinedAccess)

/-- `raise <Error>`: end the operation at once with that error (R13). -/
def raise {α : Type} (e : ErrorCode) : Except Abort α := .error (.error e)

/-- The start of an operation: the initial working state, "whether or not a reset came before it" (R30, R112 d). -/
def State.start (s : State) : State := { s with working := Working.initial }

/-- The delivery of a response, which replaces the one before it (R21); "none of [the working state] survives the end of its
operation" (R28), and the block is left as reset leaves it (R112 d). -/
def State.deliver (s : State) (r : Response) : State := { s with response := r, working := Working.initial }

/-- The abort (R103): the response holds that error's status and nothing else, and the working state is discarded. -/
def State.abort (s : State) (e : ErrorCode) : State := s.deliver (Response.error e)

/-- The end of an operation whose working steps ended in `result`; `respond` reads the results from the working state. -/
def State.finish (s : State) (result : Except Abort Working) (respond : Working → Response) : StepOutcome :=
  match result with
  | .ok w => .next (s.deliver (respond w))
  | .error (.error e) => .next (s.abort e)
  | .error (.fault f) => .fault f

/-- Reset (R112): a running operation is abandoned without a response, every response field becomes unspecified, and the block
holds no state.  The capacities and the host's side stay. -/
def State.applyReset (s : State) : State :=
  { State.afterReset s.capacity with inbox := s.inbox, hostRead := s.hostRead }

/-- The next state of an outcome. -/
def nextOf : StepOutcome → Option State
  | .next s => some s
  | .fault _ => none
  | .refused _ => none

/-- The response an outcome delivers. -/
def responseOf (o : StepOutcome) : Option Response := (nextOf o).map State.response

/-- The refusal an outcome ends in. -/
def refusalOf : StepOutcome → Option Refusal
  | .next _ => none
  | .fault _ => none
  | .refused r => some r

/-- The fault an outcome ends in. -/
def faultOf : StepOutcome → Option Fault
  | .next _ => none
  | .fault f => some f
  | .refused _ => none

end Sys2Proof.Machine
end

