-- ==== Sys2Proof/Machine/Chunker.lean ====
section
/-! DEFINITION. CHUNK (spec/42_chunker.md R75). -/

namespace Sys2Proof.Machine

/-- One iteration: append the range of chunk `i` (R73, R75). -/
def chunkStep (w : Working) : Working :=
  { w with chk := { w.chk with
      chunks := w.chk.chunks ++ [(chunkOff w.chk.idx, chunkLen w.chk.len w.chk.idx)], idx := w.chk.idx + 1 } }

/-- `for i in 0 .. K-1` (R75). -/
def chunkLoop : Nat → Working → Working
  | 0, w => w
  | n + 1, w => chunkLoop n (chunkStep w)

/-- CHUNK (R75): "Only its length is used". -/
def execChunk (text : Bytes) (s : State) : StepOutcome :=
  if s.capacity.maxTextLen < text.length then .refused .textBeyondCapacity
  else
    s.finish (.ok (chunkLoop (chunkCount text.length)
        { s.start.working with chk := { s.start.working.chk with len := text.length } }))
      fun w => { Response.ok with nChunks := some w.chk.idx, chunks := some w.chk.chunks }

end Sys2Proof.Machine
end

