-- ==== Sys2Proof/Machine/Crc.lean ====
section
/-! DEFINITION. The CRC-4/ITU engine (spec/40_crc4.md R62 to R64) and CRC4 (R65). -/

namespace Sys2Proof.Machine

/-- One input bit: `fb = crc[0] XOR b[k]; crc = {0, crc[3:1]} XOR (fb ? 0b1100 : 0b0000)` (R63). -/
def crcBit (crc : BitVec 4) (bit : Bool) : BitVec 4 :=
  (crc >>> 1) ^^^ (if (crc.getLsbD 0 ^^ bit) then Config.crcPoly else 0b0000#4)

/-- One byte, bit 0 first (R63, spec/20_memory.md R33). -/
def crcByte (crc : BitVec 4) (b : Byte) : BitVec 4 :=
  (List.range 8).foldl (fun c k => crcBit c (b.getLsbD k)) crc

/-- The register after the bytes `bs`, taken in increasing offset order (R63, R41), from the register value `crc`. -/
def crcFeed (crc : BitVec 4) (bs : Bytes) : BitVec 4 := bs.foldl crcByte crc

/-- The CRC-4/ITU of a byte sequence: the register is set to 0 at the start of every CRC computation (R22). -/
def crc4 (bs : Bytes) : BitVec 4 := crcFeed Config.crcInit bs

/-- A CRC computation by the block's one CRC engine: its register is left at the result (R22). -/
def Working.computeCrc (w : Working) (bs : Bytes) : Working := { w with crc := crc4 bs }

/-- CRC4 (R65): the result is `zext_8(crc)`; its bits [7:4] are 0 (R20). -/
def execCrc4 (data : Bytes) (s : State) : StepOutcome :=
  if s.capacity.maxBufLen < data.length then .refused .dataBeyondCapacity
  else
    s.finish (.ok (s.start.working.computeCrc data))
      fun w => { Response.ok with crc := some (w.crc.setWidth 8) }

/-! The byte-wise form (R64).  "A model may use either form": the machine uses R63, and the two are stated equal. -/

def crcRows0 : List (BitVec 4) :=
  [0x0, 0x7, 0xE, 0x9, 0x5, 0x2, 0xB, 0xC, 0xA, 0xD, 0x4, 0x3, 0xF, 0x8, 0x1, 0x6] ++
  [0xD, 0xA, 0x3, 0x4, 0x8, 0xF, 0x6, 0x1, 0x7, 0x0, 0x9, 0xE, 0x2, 0x5, 0xC, 0xB] ++
  [0x3, 0x4, 0xD, 0xA, 0x6, 0x1, 0x8, 0xF, 0x9, 0xE, 0x7, 0x0, 0xC, 0xB, 0x2, 0x5] ++
  [0xE, 0x9, 0x0, 0x7, 0xB, 0xC, 0x5, 0x2, 0x4, 0x3, 0xA, 0xD, 0x1, 0x6, 0xF, 0x8]

def crcRows4 : List (BitVec 4) :=
  [0x6, 0x1, 0x8, 0xF, 0x3, 0x4, 0xD, 0xA, 0xC, 0xB, 0x2, 0x5, 0x9, 0xE, 0x7, 0x0] ++
  [0xB, 0xC, 0x5, 0x2, 0xE, 0x9, 0x0, 0x7, 0x1, 0x6, 0xF, 0x8, 0x4, 0x3, 0xA, 0xD] ++
  [0x5, 0x2, 0xB, 0xC, 0x0, 0x7, 0xE, 0x9, 0xF, 0x8, 0x1, 0x6, 0xA, 0xD, 0x4, 0x3] ++
  [0x8, 0xF, 0x6, 0x1, 0xD, 0xA, 0x3, 0x4, 0x2, 0x5, 0xC, 0xB, 0x7, 0x0, 0x9, 0xE]

def crcRows8 : List (BitVec 4) :=
  [0xC, 0xB, 0x2, 0x5, 0x9, 0xE, 0x7, 0x0, 0x6, 0x1, 0x8, 0xF, 0x3, 0x4, 0xD, 0xA] ++
  [0x1, 0x6, 0xF, 0x8, 0x4, 0x3, 0xA, 0xD, 0xB, 0xC, 0x5, 0x2, 0xE, 0x9, 0x0, 0x7] ++
  [0xF, 0x8, 0x1, 0x6, 0xA, 0xD, 0x4, 0x3, 0x5, 0x2, 0xB, 0xC, 0x0, 0x7, 0xE, 0x9] ++
  [0x2, 0x5, 0xC, 0xB, 0x7, 0x0, 0x9, 0xE, 0x8, 0xF, 0x6, 0x1, 0xD, 0xA, 0x3, 0x4]

def crcRowsC : List (BitVec 4) :=
  [0xA, 0xD, 0x4, 0x3, 0xF, 0x8, 0x1, 0x6, 0x0, 0x7, 0xE, 0x9, 0x5, 0x2, 0xB, 0xC] ++
  [0x7, 0x0, 0x9, 0xE, 0x2, 0x5, 0xC, 0xB, 0xD, 0xA, 0x3, 0x4, 0x8, 0xF, 0x6, 0x1] ++
  [0x9, 0xE, 0x7, 0x0, 0xC, 0xB, 0x2, 0x5, 0x3, 0x4, 0xD, 0xA, 0x6, 0x1, 0x8, 0xF] ++
  [0x4, 0x3, 0xA, 0xD, 0x1, 0x6, 0xF, 0x8, 0xE, 0x9, 0x0, 0x7, 0xB, 0xC, 0x5, 0x2]

/-- `T[x]` for x = 0..255: "row r, column c holds `T[16*r + c]`" (R64). -/
def crcTable : List (BitVec 4) := crcRows0 ++ crcRows4 ++ crcRows8 ++ crcRowsC

/-- `T[x]`; every byte is an index of the table. -/
def crcTableAt (x : Byte) : BitVec 4 := crcTable.getD x.toNat 0

/-- `crc = T[ zext_8(crc) XOR b ]` (R64). -/
def crcTableByte (crc : BitVec 4) (b : Byte) : BitVec 4 := crcTableAt (crc.setWidth 8 ^^^ b)

/-- The CRC by the table form (R64). -/
def crc4ByTable (bs : Bytes) : BitVec 4 := bs.foldl crcTableByte Config.crcInit

end Sys2Proof.Machine
end

