-- ==== Sys2Proof/Machine/Decoder.lean ====
section
/-! DEFINITION. DECODE: the packet steps, the cursor loop, and the operation (spec/44_decoder.md R83 to R94). -/

namespace Sys2Proof.Machine

/-- NAME after a packet: the first packet's name bytes; later packets' "are skipped unread" (R90). -/
def captureName (buf : Bytes) (w : Working) : Except Abort Bytes :=
  if w.dec.haveName then .ok w.dec.name else memRead buf (w.dec.cur + 2) w.hdr.nameLen.toNat

/-- A packet that has passed its checks: take its name and text and advance the cursor (R90 to R92). -/
def acceptPacket (buf : Bytes) (w : Working) : Except Abort Working := do
  let name ← captureName buf w
  let text ← memRead buf (w.dec.cur + 2 + w.hdr.nameLen.toNat) w.hdr.textLen.toNat
  .ok { w with dec := { w.dec with
    name := name, haveName := true, acc := w.dec.acc ++ text, cur := w.dec.cur + w.hdr.packetSize } }

/-- The CRC check (R89), over the packet with its crc4 nibble zeroed in a working copy (R72). -/
def checkPacketCrc (buf : Bytes) (b0 b1 : Byte) (w : Working) : Except Abort Working := do
  let body ← memRead buf (w.dec.cur + 2) (w.hdr.packetSize - 2)
  let w1 := w.computeCrc ([b0, clearCrcNibble b1] ++ body)
  if w1.crc ≠ w1.hdr.crc4 then raise .invalidCrc else .ok w1

/-- One iteration: the checks in the order of R102 and then the packet's effect (R85 to R92). -/
def decodePacket (buf : Bytes) (w : Working) : Except Abort Working :=
  if w.dec.len - w.dec.cur < 2 then raise .invalidBuffer
  else do
    let b0 ← readByte buf w.dec.cur
    let b1 ← readByte buf (w.dec.cur + 1)
    let w1 := { w with hdr := Header.ofBytes b0 b1 }
    if w1.hdr.flag ≠ Config.flag then raise .invalidFlag
    else if w1.dec.len < w1.dec.cur + w1.hdr.packetSize then raise .invalidBuffer
    else do
      let w2 ← checkPacketCrc buf b0 b1 w1
      acceptPacket buf w2

/-- "While the cursor is before the end of the buffer" (R84), for at most the given number of iterations. -/
def decodeLoop (buf : Bytes) : Nat → Working → Except Abort Working
  | 0, w => if w.dec.cur < w.dec.len then .error (.fault .loopUnfinished) else .ok w
  | n + 1, w => if w.dec.cur < w.dec.len then (decodePacket buf w).bind (decodeLoop buf n) else .ok w

/-- DECODE's registers before the loop (R84, R94). -/
def decodeSetup (buf : Bytes) (w : Working) : Working := { w with dec := { w.dec with len := buf.length } }

/-- DECODE (R94).  The loop gets the N div 2 iterations that can complete (R96) and the one more that R85 may end (log entry 11). -/
def execDecode (buf : Bytes) (s : State) : StepOutcome :=
  if s.capacity.maxBufLen < buf.length then .refused .bufBeyondCapacity
  else
    s.finish
      (if buf.length < 2 then raise .invalidBuffer
       else decodeLoop buf (buf.length / 2 + 1) (decodeSetup buf s.start.working))
      fun w => { Response.ok with dName := some w.dec.name, dText := some w.dec.acc }

end Sys2Proof.Machine
end

