-- ==== Sys2Proof/Machine/HeaderCodec.lean ====
section
/-! DEFINITION. HDR_PACK and HDR_UNPACK (spec/41_header.md R68, R69), and the write of the crc4 nibble inside a packet (R71). -/

namespace Sys2Proof.Machine

/-- HDR_PACK (R68): the fields are packed as given, in the required ranges or not (D8). -/
def execHdrPack (flag : BitVec 3) (nameLen : BitVec 4) (textLen : BitVec 5) (crc : BitVec 4) (s : State) : StepOutcome :=
  s.finish (.ok { s.start.working with hdr := { flag := flag, nameLen := nameLen, textLen := textLen, crc4 := crc } })
    fun w => { Response.ok with hdrOut := some w.hdr.pack }

/-- HDR_UNPACK (R69): no check of any kind. -/
def execHdrUnpack (hdr : BitVec 16) (s : State) : StepOutcome :=
  s.finish (.ok { s.start.working with hdr := Header.unpack hdr })
    fun w =>
      { Response.ok with
        uFlag := some w.hdr.flag, uNameLen := some w.hdr.nameLen, uTextLen := some w.hdr.textLen, uCrc4 := some w.hdr.crc4 }

/-- CRC insert (R71): write `c` into the crc4 field of the packet that starts at offset `p` of the scratch region `S`. -/
def insertCrc (S : Bytes) (p : Nat) (c : BitVec 4) : Except Abort Bytes := do
  let b1 ← readByte S (p + 1)
  memWrite S (p + 1) [setCrcNibble b1 c]

end Sys2Proof.Machine
end

