-- ==== Sys2Proof/Machine/Encoder.lean ====
section
/-! DEFINITION. ENCODE: operand checks, the packet loop, and the operation (spec/43_encoder.md R77 to R80). -/

namespace Sys2Proof.Machine

/-- The operand checks, in order; the first that fails is the error (R77). -/
def checkMessage (name text : Bytes) : Option ErrorCode :=
  if name.length = 0 then some .nameEmpty
  else if Config.maxName < name.length then some .nameTooLong
  else if text.length = 0 then some .textEmpty
  else none

/-- One iteration: build the packet of chunk `i` in the scratch region, compute its CRC over the header with the nibble zero,
insert the nibble, and append the packet (R78, R79, spec/70_reset_and_hazards.md R117). -/
def encodePacket (name text : Bytes) (w : Working) : Except Abort Working := do
  let n := chunkLen w.enc.len w.enc.idx
  let h0 := preCrcHeader name.length n
  let chunk ← memRead text (chunkOff w.enc.idx) n
  let w1 := { w with hdr := h0, enc := { w.enc with scratch := h0.bytes ++ name ++ chunk } }
  let w2 := w1.computeCrc w1.enc.scratch
  let packet ← insertCrc w2.enc.scratch 0 w2.crc
  .ok { w2 with
    hdr := { w2.hdr with crc4 := w2.crc }
    enc := { w2.enc with
      crc := w2.crc, scratch := packet, out := w2.enc.out ++ packet, idx := w2.enc.idx + 1 } }

/-- `for i in 0 .. K-1` (R80). -/
def encodeLoop (name text : Bytes) : Nat → Working → Except Abort Working
  | 0, w => .ok w
  | n + 1, w => (encodePacket name text w).bind (encodeLoop name text n)

/-- ENCODE's registers before the loop (R80). -/
def encodeSetup (text : Bytes) (w : Working) : Working :=
  { w with enc := { w.enc with len := text.length, count := chunkCount text.length } }

/-- ENCODE (R80): the refusals and the checks in the order of its pseudocode. -/
def execEncode (name text : Bytes) (s : State) : StepOutcome :=
  if s.capacity.maxTextLen < text.length then .refused .textBeyondCapacity
  else
    match checkMessage name text with
    | some e => .next (s.abort e)
    | none =>
      let w0 := encodeSetup text s.start.working
      if s.capacity.maxBufLen < w0.enc.count * (2 + name.length) + w0.enc.len then .refused .outputBeyondCapacity
      else s.finish (encodeLoop name text w0.enc.count w0) fun w => { Response.ok with out := some w.enc.out }

end Sys2Proof.Machine
end

