-- ==== Sys2Proof/Machine/Dispatch.lean ====
section
/-! DEFINITION. One arm per operation: its meaning. -/

namespace Sys2Proof.Machine

def exec (i : Instr) (s : State) : Host.Outcome State Fault Refusal :=
  match i with
  | .crc4 data => Sys2Proof.Machine.execCrc4 data s
  | .hdrPack flag nameLen textLen crc => Sys2Proof.Machine.execHdrPack flag nameLen textLen crc s
  | .hdrUnpack hdr => Sys2Proof.Machine.execHdrUnpack hdr s
  | .chunk text => Sys2Proof.Machine.execChunk text s
  | .encode name text => Sys2Proof.Machine.execEncode name text s
  | .decode buf => Sys2Proof.Machine.execDecode buf s

end Sys2Proof.Machine
end

