-- ==== Sys2Proof/Machine/Issue.lean ====
section
/-! DEFINITION. The host's actions on the block: issuing a request, reading a response field, applying reset (spec/10_state.md R18 to
R20, spec/30_encoding.md R57, spec/60_exceptions.md R103, spec/70_reset_and_hazards.md R112 to R114). -/

namespace Sys2Proof.Machine

/-- The host puts a request at the block's request fields (R19). -/
def State.accept (s : State) (r : EncodedRequest) : State := { s with request := some r }

/-- The operation a request starts: "selected by the request's `cmd` field alone" (R45).  A reserved cmd "completes with status
IllegalOp" (R57), the block's illegal-instruction exception; a request that breaks the host's duty of R114 has no meaning. -/
def runRequest (r : EncodedRequest) (s : State) : StepOutcome :=
  match decode r with
  | .ok i => exec i (s.accept r)
  | .error (.reservedCmd _) => .next ((s.accept r).abort .illegalOp)
  | .error e => .refused (.malformedRequest e)

/-- A request whose operation reset cuts off: it "is abandoned and gives no response" (R112 b).  A request that has no meaning
still has none. -/
def runThenReset (r : EncodedRequest) (s : State) : StepOutcome :=
  match runRequest r s with
  | .next _ => .next s.applyReset
  | .fault f => .fault f
  | .refused ρ => .refused ρ

/-- The host's read of a response field: "A model must fault on a read of an unspecified response field rather than give it a
value" (R103).  Reading changes nothing of the block's. -/
def readResponse (f : ResponseField) (s : State) : StepOutcome :=
  match s.response.field f with
  | some v => .next { s with hostRead := some v }
  | none => .fault (.unspecifiedRead f)

/-- One action of the host. -/
def perform : HostAction → State → StepOutcome
  | .request r, s => runRequest r s
  | .requestThenReset r, s => runThenReset r s
  | .reset, s => .next s.applyReset
  | .read f, s => readResponse f s

/-- One step: the host's next action.  Where the host does nothing, "the block simply waits for the next request" (R103). -/
def hostStep (s : State) : StepOutcome :=
  match s.inbox with
  | [] => .next s
  | a :: rest => perform a { s with inbox := rest }

end Sys2Proof.Machine
end

