-- ==== Sys2Proof/Machine/Step.lean ====
section
/-! DEFINITION. The step, and the placing of an opcode-table word where the step takes its next request. -/

namespace Sys2Proof.Machine

/-- One step of the machine: one action of the host, and where that is a request, the whole operation (R38, R41). -/
def step (s : State) : Host.Outcome State Fault Refusal := hostStep s

/-- `s` with the request of an opcode-table word as the host's next action (log entries 9 and 13): the block fetches nothing (R18,
R45), and a request runs when the host issues it. -/
def State.withFetchWord (s : State) (_nbits w : Nat) : State :=
  { s with inbox := .request (tableRequest w) :: s.inbox }

end Sys2Proof.Machine
end

