-- ==== Sys2Proof/Machine/Program.lean ====
section
/-! DEFINITION. The program notation of spec/30_encoding.md R59 and R60 as lines already split into their parts, its transcription
into encoded requests (R61), and the run of a program (spec/70_reset_and_hazards.md R118).  All of it is the host's. -/

namespace Sys2Proof.Machine

/-- What a line's operation can be: a mnemonic of R56, a pseudo-operation of R60, or `.req <cmd>`. -/
inductive LineOp where
  | crc4 | hdrPack | hdrUnpack | chunk | encode | decode
  | prehdr | finhdr | check
  | req (cmd : Byte)
deriving DecidableEq, Repr

/-- An operand as it is written (R59): a number, a quoted ASCII string, hex bytes, or a field of an earlier result. -/
inductive LineOperand where
  | number (v : Nat)
  | ascii (chars : List Char)
  | hex (bytes : Bytes)
  | result (label : String) (field : ResponseField)
deriving DecidableEq, Repr

/-- A line of a program: `[<result> =] <MNEMONIC> <operand>, ...` (R59). -/
structure Line where
  label : Option String
  op : LineOp
  operands : List LineOperand
deriving DecidableEq, Repr

/-- The named results of the earlier lines, the latest first: "host bookkeeping, not block state" (R59). -/
abbrev Bindings := List (String × Response)

/-- Why a line has no transcription. -/
inductive LineError where
  /-- a number does not fit its field's width: "A transcriber refuses" it (R59) -/
  | doesNotFit (width value : Nat)
  /-- a character of a quoted string is not ASCII -/
  | notAscii
  /-- an operand is not of the kind the operation takes -/
  | wrongKind
  /-- the number of operands is not the operation's -/
  | wrongCount
  /-- no earlier line has this label -/
  | unknownResult
  /-- the field of the earlier result is unspecified and must not be read (R103) -/
  | unspecifiedResult (field : ResponseField)
deriving DecidableEq, Repr

/-- The kinds of operand of R56: a field of a width, the header, a byte sequence. -/
inductive OperandKind where
  | field (width : Nat)
  | header
  | sequence
deriving DecidableEq, Repr

/-- A quoted string: "each character one byte by identity mapping" (R59). -/
def asciiBytes : List Char → Except LineError Bytes
  | [] => .ok []
  | c :: cs =>
    if c.toNat < 128 then (asciiBytes cs).map (BitVec.ofNat 8 c.toNat :: ·) else .error .notAscii

/-- A field of an earlier result. -/
def resultField (env : Bindings) (label : String) (f : ResponseField) : Except LineError FieldValue :=
  match env.lookup label with
  | none => .error .unknownResult
  | some r =>
    match r.field f with
    | some v => .ok v
    | none => .error (.unspecifiedResult f)

/-- An operand with the earlier results put in: a number or a byte sequence. -/
def evalOperand (env : Bindings) : LineOperand → Except LineError (Nat ⊕ Bytes)
  | .number v => .ok (.inl v)
  | .ascii cs => (asciiBytes cs).map .inr
  | .hex bs => .ok (.inr bs)
  | .result l f => do
    match ← resultField env l f with
    | .word _ v => .ok (.inl v)
    | .natural n => .ok (.inl n)
    | .bytes bs => .ok (.inr bs)
    | .ranges _ => .error .wrongKind

/-- An operand value of the encoded request (R59, R61).  R59 writes `hdr` as a number or two hex bytes.  DESIGN CHOICE (log entry 16):
any other operand that stands for two bytes, a quoted string of two characters or a two-byte field of an earlier result, is taken
as the two bytes of `hdr` too. -/
def transcribeOperand (env : Bindings) (k : OperandKind) (o : LineOperand) : Except LineError OperandValue := do
  match k, ← evalOperand env o with
  | .field w, .inl v => if v < 2 ^ w then .ok (.number v) else .error (.doesNotFit w v)
  | .header, .inl v =>
    if v < 2 ^ 16 then .ok (.bytePair (BitVec.ofNat 8 (v / 256)) (BitVec.ofNat 8 v)) else .error (.doesNotFit 16 v)
  | .header, .inr [b0, b1] => .ok (.bytePair b0 b1)
  | .sequence, .inr bs => .ok (.sequence bs.length bs)
  | _, _ => .error .wrongKind

/-- The operand values of a line, one per kind. -/
def transcribeOperands (env : Bindings) : List OperandKind → List LineOperand → Except LineError (List OperandValue)
  | [], [] => .ok []
  | k :: ks, o :: os => do
    let v ← transcribeOperand env k o
    let vs ← transcribeOperands env ks os
    .ok (v :: vs)
  | _, _ => .error .wrongCount

/-- The cmd and the kinds of operand of a line's operation (R56); `.req` issues a raw cmd "and no operands" (R59). -/
def LineOp.shape : LineOp → Byte × List OperandKind
  | .crc4 => (0x00#8, [.sequence])
  | .hdrPack => (0x01#8, [.field 3, .field 4, .field 5, .field 4])
  | .hdrUnpack => (0x02#8, [.header])
  | .chunk => (0x03#8, [.sequence])
  | .encode => (0x04#8, [.sequence, .sequence])
  | .decode => (0x05#8, [.sequence])
  | .prehdr => (0x01#8, [.field 3, .field 4, .field 5, .field 4])
  | .finhdr => (0x01#8, [.field 3, .field 4, .field 5, .field 4])
  | .check => (0x05#8, [.sequence])
  | .req cmd => (cmd, [])

/-- The operands of a line with its pseudo-operation expanded (R60). -/
def Line.expandedOperands (l : Line) : List LineOperand :=
  match l.op, l.operands with
  | .prehdr, [n, t] => [.number 0b101, n, t, .number 0]
  | .prehdr, _ => []
  | .finhdr, [n, t, c] => [.number 0b101, n, t, c]
  | .finhdr, _ => []
  | _, os => os

/-- The encoded request of a line (R61). -/
def Line.transcribe (env : Bindings) (l : Line) : Except LineError EncodedRequest := do
  let vs ← transcribeOperands env l.op.shape.2 l.expandedOperands
  .ok ⟨l.op.shape.1, vs⟩

/-- An operation written as a line: fields and the header as numbers, byte sequences as hex (R59). -/
def Line.ofInstr (label : Option String) : Instr → Line
  | .crc4 data => ⟨label, .crc4, [.hex data]⟩
  | .hdrPack f n t c => ⟨label, .hdrPack, [.number f.toNat, .number n.toNat, .number t.toNat, .number c.toNat]⟩
  | .hdrUnpack hdr => ⟨label, .hdrUnpack, [.number hdr.toNat]⟩
  | .chunk text => ⟨label, .chunk, [.hex text]⟩
  | .encode name text => ⟨label, .encode, [.hex name, .hex text]⟩
  | .decode buf => ⟨label, .decode, [.hex buf]⟩

/-- How the run of a program ends. -/
inductive ProgramEnd where
  /-- "when the response to its last request is delivered" (R118): the responses in order, and the machine -/
  | ended (responses : List Response) (s : State)
  /-- a line has no transcription -/
  | untranscribed (e : LineError)
  /-- a request was refused or faulted: "the run that issued it has no final state" (R118) -/
  | noFinalState
deriving DecidableEq, Repr

/-- The run of a program: the host issues each line's request when the response before it is delivered (R41, R116). -/
def runProgram : List Line → Bindings → List Response → State → ProgramEnd
  | [], _, done, s => .ended done s
  | l :: ls, env, done, s =>
    match l.transcribe env with
    | .error e => .untranscribed e
    | .ok r =>
      match nextOf (step { s with inbox := .request r :: s.inbox }) with
      | none => .noFinalState
      | some s' =>
        let env' := match l.label with
          | some name => (name, s'.response) :: env
          | none => env
        runProgram ls env' (done ++ [s'.response]) s'

end Sys2Proof.Machine
end

