-- ==== Sys2Proof/Machine/Transaction.lean ====
section
/-! DEFINITION. The transaction level: each operation "as one function of its request" (spec/10_state.md §3, R16).  These functions
have no working state and no loop over a cursor; that `exec`, which has both, gives the same responses is stated, not assumed. -/

namespace Sys2Proof.Machine

/-- The bytes of a range (offset, length) of a sequence. -/
def slice (B : Bytes) (r : Nat × Nat) : Bytes := (B.drop r.1).take r.2

/-- The chunk ranges of a text of length `len` (spec/42_chunker.md R73). -/
def chunkRanges (len : Nat) : List (Nat × Nat) :=
  (List.range (chunkCount len)).map fun i => (chunkOff i, chunkLen len i)

/-- The finished header of a packet, "build[ing] each packet's header value from immutable fields" (spec/41_header.md R71):
the crc4 field is the CRC of the packet with that field zeroed (spec/30_encoding.md R53). -/
def packetHeader (name chunk : Bytes) : Header :=
  { preCrcHeader name.length chunk.length with
    crc4 := crc4 ((preCrcHeader name.length chunk.length).bytes ++ name ++ chunk) }

/-- The packet that carries one chunk (R51, R53). -/
def packet (name chunk : Bytes) : Bytes := (packetHeader name chunk).bytes ++ name ++ chunk

/-- ENCODE's output: the packets of the chunks, in chunk order, "with no padding, separators, or framing" (R52). -/
def encodeMessage (name text : Bytes) : Bytes :=
  (chunkRanges text.length).flatMap fun r => packet name (slice text r)

/-- The names and texts of the packets of a sequence of bytes, or the error of the first packet that fails
(spec/60_exceptions.md R102), for at most the given number of packets. -/
def splitPackets : Nat → Bytes → Except ErrorCode (List (Bytes × Bytes))
  | _, [] => .ok []
  | 0, _ :: _ => .error .invalidBuffer
  | _ + 1, [_] => .error .invalidBuffer
  | n + 1, b0 :: b1 :: rest =>
    let h := Header.ofBytes b0 b1
    let size := h.nameLen.toNat + h.textLen.toNat
    if h.flag ≠ Config.flag then .error .invalidFlag
    else if rest.length < size then .error .invalidBuffer
    else if crc4 ([b0, clearCrcNibble b1] ++ rest.take size) ≠ h.crc4 then .error .invalidCrc
    else
      match splitPackets n (rest.drop size) with
      | .ok ps => .ok ((rest.take h.nameLen.toNat, (rest.drop h.nameLen.toNat).take h.textLen.toNat) :: ps)
      | .error e => .error e

/-- The packets of a buffer: at most N div 2 of them, since each has at least 2 bytes (R51). -/
def packetsOf (buf : Bytes) : Except ErrorCode (List (Bytes × Bytes)) := splitPackets (buf.length / 2) buf

/-- The message of a list of packets: the first packet's name and all the texts in order (spec/44_decoder.md R90, R91). -/
def messageOf (ps : List (Bytes × Bytes)) : Bytes × Bytes :=
  (match ps with | [] => [] | p :: _ => p.1, (ps.map (·.2)).flatten)

/-- DECODE's result (R83, R94). -/
def decodeMessage (buf : Bytes) : Except ErrorCode (Bytes × Bytes) :=
  if buf.length < 2 then .error .invalidBuffer
  else
    match packetsOf buf with
    | .ok ps => .ok (messageOf ps)
    | .error e => .error e

/-- The response of a request, or the refusal of one beyond the capacities (R9, R100). -/
def respond (c : Config.Capacity) : Instr → Except Refusal Response
  | .crc4 data =>
    if c.maxBufLen < data.length then .error .dataBeyondCapacity
    else .ok { Response.ok with crc := some ((crc4 data).setWidth 8) }
  | .hdrPack f n t k => .ok { Response.ok with hdrOut := some (Header.pack ⟨f, n, t, k⟩) }
  | .hdrUnpack hdr =>
    .ok { Response.ok with
      uFlag := some (Header.unpack hdr).flag, uNameLen := some (Header.unpack hdr).nameLen
      uTextLen := some (Header.unpack hdr).textLen, uCrc4 := some (Header.unpack hdr).crc4 }
  | .chunk text =>
    if c.maxTextLen < text.length then .error .textBeyondCapacity
    else .ok { Response.ok with nChunks := some (chunkCount text.length), chunks := some (chunkRanges text.length) }
  | .encode name text =>
    if c.maxTextLen < text.length then .error .textBeyondCapacity
    else
      match checkMessage name text with
      | some e => .ok (Response.error e)
      | none =>
        if c.maxBufLen < encodedLength name.length text.length then .error .outputBeyondCapacity
        else .ok { Response.ok with out := some (encodeMessage name text) }
  | .decode buf =>
    if c.maxBufLen < buf.length then .error .bufBeyondCapacity
    else
      match decodeMessage buf with
      | .ok m => .ok { Response.ok with dName := some m.1, dText := some m.2 }
      | .error e => .ok (Response.error e)

end Sys2Proof.Machine
end

