-- ==== Sys2Proof/Safety.lean ====
section
/-! DEFINITION. What the statements speak of: a legal response, the invariant of the machine, a request beyond the capacities, the
errors and response fields of each operation, and a run of valid packets. -/

namespace Sys2Proof.Safety

open Sys2Proof.Machine

/-- A response as spec/10_state.md R20 and spec/30_encoding.md R58 describe it: a status that is produced, nothing else specified
unless the status is OK, and every field within its bounds. -/
structure LegalResponse (c : Config.Capacity) (r : Response) : Prop where
  /-- status 0x08 to 0xFF is never produced (R58) -/
  status_produced : ∀ st, r.status = some st → st.toNat ≤ 7
  /-- "When `status` is not OK (0x00), only `status` is defined" (R20) -/
  only_status : r.status ≠ some statusOk → r = { Response.unspecified with status := r.status }
  /-- `crc` bits [7:4] are 0 (R20) -/
  crc_nibble : ∀ v, r.crc = some v → v.toNat < 16
  /-- `n_chunks` is in 0..ceil(MAX_TEXT_LEN/31) (R20) -/
  nChunks_bound : ∀ n, r.nChunks = some n → n ≤ (c.maxTextLen + 30) / 31
  /-- `chunks` has `n_chunks` ranges (R20, R75) -/
  chunks_count : ∀ l, r.chunks = some l → r.nChunks = some l.length
  /-- `out` has 0..MAX_BUF_LEN bytes (R20) -/
  out_bound : ∀ b, r.out = some b → b.length ≤ c.maxBufLen
  /-- `d_name` has 0..15 bytes (R20) -/
  dName_bound : ∀ b, r.dName = some b → b.length ≤ 15
  /-- `d_text` has 0..MAX_BUF_LEN bytes (R20) -/
  dText_bound : ∀ b, r.dText = some b → b.length ≤ c.maxBufLen

/-- The invariant of the machine between two steps: the block holds no working state (R16, R28, R112 d), and the response is
legal. -/
structure Inv (s : State) : Prop where
  working_initial : s.working = Working.initial
  response_legal : LegalResponse s.capacity s.response

/-- The refusals of spec/60_exceptions.md R100: a request beyond the capacity parameters.  ENCODE has an output only where its
operand checks pass. -/
def beyondCapacity (c : Config.Capacity) : Instr → Bool
  | .crc4 data => decide (c.maxBufLen < data.length)
  | .hdrPack _ _ _ _ => false
  | .hdrUnpack _ => false
  | .chunk text => decide (c.maxTextLen < text.length)
  | .encode name text =>
    decide (c.maxTextLen < text.length) ||
      (decide (1 ≤ name.length) && decide (name.length ≤ 15) && decide (1 ≤ text.length) &&
        decide (c.maxBufLen < (text.length + 30) / 31 * (2 + name.length) + text.length))
  | .decode buf => decide (c.maxBufLen < buf.length)

/-- The errors each operation may report: the "raised by" column of R58. -/
def errorsOf : Instr → List ErrorCode
  | .crc4 _ => []
  | .hdrPack _ _ _ _ => []
  | .hdrUnpack _ => []
  | .chunk _ => []
  | .encode _ _ => [.nameEmpty, .textEmpty, .nameTooLong]
  | .decode _ => [.invalidBuffer, .invalidFlag, .invalidCrc]

/-- The response fields each operation sets, beside the status: the "set by" column of R20. -/
def fieldsOf : Instr → List ResponseField
  | .crc4 _ => [.crc]
  | .hdrPack _ _ _ _ => [.hdrOut, .ob0, .ob1]
  | .hdrUnpack _ => [.uFlag, .uNameLen, .uTextLen, .uCrc4]
  | .chunk _ => [.nChunks, .chunks]
  | .encode _ _ => [.out]
  | .decode _ => [.dName, .dText]

/-- `a` is a run of valid packets: nothing, or a buffer DECODE answers with OK and these results. -/
def DecodesTo (s : State) (a name text : Bytes) : Prop :=
  ∃ t, exec (.decode a) s = .next t ∧ t.response.status = some statusOk ∧
    t.response.dName = some name ∧ t.response.dText = some text

/-- `a` is a run of valid packets, which may be empty. -/
def ValidRun (s : State) (a : Bytes) : Prop := a = [] ∨ ∃ name text, DecodesTo s a name text

end Sys2Proof.Safety
end

