-- ==== Sys2Proof/Certificates/Slice0/Obligations.lean ====
section
/-! DEFINITION. The statements for the provers, from the numbered rules of spec/.  A next state is written out in full: what it does
not name is unchanged. -/

open Sys2Proof Sys2Proof.Machine Sys2Proof.Safety

/-! ## Requests: decoding and issue -/

/-- R56, R61, with the widths of R19: the decoder answers an instruction exactly for its well-formed encoding. -/
def Obligations.DecodeAndEncodeAgree : Prop :=
  ∀ (r : EncodedRequest) (i : Instr), decode r = .ok i ↔ (i.wellFormed = true ∧ encode i = r)

/-- Requests written out as spec/95_test_vectors.md §3 writes its programs' encodings (P1 to P4, R61). -/
def Obligations.WrittenRequestsDecode : Prop :=
  decode ⟨0x00#8, [.sequence 2 [0x48#8, 0x69#8]]⟩ = .ok (.crc4 [0x48#8, 0x69#8]) ∧
  decode ⟨0x01#8, [.number 0b101, .number 8, .number 2, .number 0xA]⟩ = .ok (.hdrPack 0b101#3 8#4 2#5 0xA#4) ∧
  decode ⟨0x02#8, [.bytePair 0xB0#8 0x2A#8]⟩ = .ok (.hdrUnpack 0xB02A#16) ∧
  decode ⟨0x03#8, [.sequence 1 [0x41#8]]⟩ = .ok (.chunk [0x41#8]) ∧
  decode ⟨0x04#8, [.sequence 1 [0x41#8], .sequence 1 [0x78#8]]⟩ = .ok (.encode [0x41#8] [0x78#8]) ∧
  decode ⟨0x05#8, [.sequence 2 [0xA0#8, 0x06#8]]⟩ = .ok (.decode [0xA0#8, 0x06#8]) ∧
  decode ⟨0x84#8, []⟩ = .error (.reservedCmd 0x84#8)

/-- The words of spec/opcode_table.json: each row's cmd byte, operands zero (log entry 13 for the operands). -/
def Obligations.OpcodeTableWordsDecode : Prop :=
  decodeTableWord 8 0x00 = some (.crc4 []) ∧ decodeTableWord 8 0x01 = some (.hdrPack 0 0 0 0) ∧
  decodeTableWord 8 0x02 = some (.hdrUnpack 0) ∧ decodeTableWord 8 0x03 = some (.chunk []) ∧
  decodeTableWord 8 0x04 = some (.encode [] []) ∧ decodeTableWord 8 0x05 = some (.decode []) ∧
  ∀ w, 6 ≤ w → decodeTableWord 8 w = none

/-- A step runs the decoded instruction: the request at the head of the host's actions is put at the request fields and its
operation is run.  That a step performs the first of the host's actions is the model's choice (log entry 9, DESIGN CHOICE), that
it runs a whole operation its reading of R38 (log entry 5, DEDUCED), and that the request stands at the request fields its choice
(log entry 12, DESIGN CHOICE); the rules say that a request alone starts an operation and selects it. -/
def Obligations.StepRunsDecodedInstruction : Prop :=
  ∀ (s : State) (r : EncodedRequest) (rest : List HostAction) (i : Instr),
    s.inbox = .request r :: rest → decode r = .ok i → step s = exec i { s with inbox := rest, request := some r }

/-- A word of the opcode table placed for the next step is run by it. -/
def Obligations.PlacedTableWordRuns : Prop :=
  ∀ (s : State) (nbits w : Nat) (i : Instr),
    decodeTableWord nbits w = some i → step (s.withFetchWord nbits w) = exec i { s with request := some (tableRequest w) }

/-- R57: a reserved cmd, whatever operands stand beside it. -/
def Obligations.ReservedCmdIsIllegalOp : Prop :=
  ∀ (s : State) (r : EncodedRequest) (rest : List HostAction),
    s.inbox = .request r :: rest → 6 ≤ r.cmd.toNat →
      step s = .next { s with
        inbox := rest, request := some r
        response := { Response.unspecified with status := some 0x07#8 }, working := Working.initial }

/-- R114, with R19 and R59: a request of a defined cmd whose operands are not those of R19 has no meaning in the model
(the refusal is the model's choice, log entry 7). -/
def Obligations.MalformedRequestIsRefused : Prop :=
  ∀ (s : State) (r : EncodedRequest) (rest : List HostAction) (e : DecodeError),
    s.inbox = .request r :: rest → r.cmd.toNat ≤ 5 → decode r = .error e →
      step s = .refused (.malformedRequest e)

/-- R103: "The block simply waits for the next request" (that waiting is a step that changes nothing is log entry 8). -/
def Obligations.IdleBlockWaits : Prop :=
  ∀ s : State, s.inbox = [] → step s = .next s

/-- R103 and R112 c: the host's read of a response field, specified or not.  R103 says that the read of an unspecified field faults;
that unspecified is `none` is log entry 6 (DEDUCED), and that the read of a specified field leaves its value in `hostRead` and
changes nothing else is the model's choice (log entry 12, DESIGN CHOICE). -/
def Obligations.HostReadFaultsWhenUnspecified : Prop :=
  ∀ (s : State) (f : ResponseField) (rest : List HostAction), s.inbox = .read f :: rest →
    (s.response.field f = none → step s = .fault (.unspecifiedRead f)) ∧
    (∀ v, s.response.field f = some v → step s = .next { s with inbox := rest, hostRead := some v })

/-- A step that performs a request leaves the request as the host issued it.  R37 says that no operation writes an input sequence;
that the request fields still hold the request when the response is delivered is the model's choice (log entry 12, DESIGN CHOICE),
and so are the host's remaining actions (log entry 9). -/
def Obligations.RequestStepLeavesRequestAsIssued : Prop :=
  ∀ (s t : State) (r : EncodedRequest) (rest : List HostAction),
    s.inbox = .request r :: rest → step s = .next t →
      t.request = some r ∧ t.inbox = rest ∧ t.hostRead = s.hostRead ∧ t.capacity = s.capacity

/-! ## Reset and the invariant -/

/-- R30, R112, R113: the initial values, after reset and at the start of every operation. -/
def Obligations.InitialValues : Prop :=
  (∀ c, (State.afterReset c).response = Response.unspecified ∧ (∀ f, (State.afterReset c).response.field f = none) ∧
    (State.afterReset c).request = none) ∧
  ∀ w : Working, ((∃ c, w = (State.afterReset c).working) ∨ ∃ s : State, w = s.start.working) →
    w.crc = 0x0#4 ∧ w.dec.cur = 0 ∧ w.dec.acc = [] ∧ w.dec.haveName = false ∧ w.dec.name = [] ∧
    w.enc.out = [] ∧ w.enc.idx = 0 ∧ w.chk.idx = 0 ∧ w.enc.scratch = []

/-- R112: reset between operations, and reset while an operation is in progress; and reset during a request that is refused, which
stays refused.  The model's own in this are log entry 10's: that no request is left at the request fields (DEDUCED), that the
capacities and the host's side stay and that a refused request stays refused (DESIGN CHOICE). -/
def Obligations.ResetForgetsEverything : Prop :=
  ∀ (s : State) (rest : List HostAction),
    (s.inbox = .reset :: rest →
      step s = .next { s with
        inbox := rest, request := none, response := Response.unspecified, working := Working.initial }) ∧
    (∀ (r : EncodedRequest) (t : State), s.inbox = .requestThenReset r :: rest →
      step { s with inbox := .request r :: rest } = .next t →
        step s = .next { s with
          inbox := rest, request := none, response := Response.unspecified, working := Working.initial }) ∧
    (∀ (r : EncodedRequest) (ρ : Refusal), s.inbox = .requestThenReset r :: rest →
      step { s with inbox := .request r :: rest } = .refused ρ → step s = .refused ρ)

/-- The state right after reset meets the invariant, whatever the capacities. -/
def Obligations.InvariantHoldsAtReset : Prop :=
  Inv State.reset ∧ ∀ c, Inv (State.afterReset c)

/-- R20, R28, R58: every step keeps "no working state, and a legal response". -/
def Obligations.StepKeepsInvariant : Prop :=
  ∀ s t : State, Inv s → step s = .next t → Inv t

/-- R9: no step changes the capacities of the instance. -/
def Obligations.CapacityNeverChanges : Prop :=
  ∀ s t : State, step s = .next t → t.capacity = s.capacity

/-! ## All operations -/

/-- R119, R96: every admitted request completes: within the capacities `exec` answers a next state. -/
def Obligations.AdmittedOperationsComplete : Prop :=
  ∀ (i : Instr) (s : State), beyondCapacity s.capacity i = false → ∃ t, exec i s = .next t

/-- R100, R80: a request is refused exactly when it is beyond the capacities.  That ENCODE is refused for its output only where the
message is valid is R80's order, which the model reads into R100 and R102 (log entry 14, DEDUCED). -/
def Obligations.RefusedExactlyBeyondCapacity : Prop :=
  ∀ (i : Instr) (s : State), (∃ ρ, exec i s = .refused ρ) ↔ beyondCapacity s.capacity i = true

/-- R13, R96: no operation uses MemRead or MemWrite outside its sequence, and DECODE's loop ends within N div 2 iterations that
complete and one that ends in an error (log entry 11). -/
def Obligations.OperationsNeverFault : Prop :=
  ∀ (i : Instr) (s : State) (f : Fault), exec i s ≠ .fault f

/-- R16: the response depends on the request alone, whatever working state, earlier request or earlier response the block is found
with, and no working state survives the operation. -/
def Obligations.ResponseDependsOnRequestOnly : Prop :=
  ∀ (i : Instr) (s u : State), s.capacity = u.capacity →
    responseOf (exec i s) = responseOf (exec i u) ∧ refusalOf (exec i s) = refusalOf (exec i u) ∧
    ∀ t, exec i s = .next t → t.working = Working.initial

/-- R28, R29: what an operation leaves: the response and nothing else. -/
def Obligations.OperationFrame : Prop :=
  ∀ (i : Instr) (s t : State), exec i s = .next t → t = { s with response := t.response, working := Working.initial }

/-- R20: the fields an operation's response specifies. -/
def Obligations.ResponseFieldsPerOperation : Prop :=
  ∀ (i : Instr) (s t : State), exec i s = .next t →
    (t.response.status = some 0x00#8 → ∀ f, t.response.field f ≠ none ↔ (f = .status ∨ f ∈ fieldsOf i)) ∧
    (t.response.status ≠ some 0x00#8 → ∀ f, t.response.field f ≠ none ↔ f = .status)

/-- R98, R99: which operation reports which error, by which code, and nothing with it. -/
def Obligations.ErrorsPerOperation : Prop :=
  (∀ (i : Instr) (s t : State), exec i s = .next t →
    t.response.status = some 0x00#8 ∨
      ∃ e ∈ errorsOf i, t.response = { Response.unspecified with status := some e.status }) ∧
  ErrorCode.status .nameEmpty = 0x01#8 ∧ ErrorCode.status .textEmpty = 0x02#8 ∧ ErrorCode.status .nameTooLong = 0x03#8 ∧
  ErrorCode.status .invalidBuffer = 0x04#8 ∧ ErrorCode.status .invalidFlag = 0x05#8 ∧ ErrorCode.status .invalidCrc = 0x06#8 ∧
  ErrorCode.status .illegalOp = 0x07#8

/-- spec/10_state.md §3: the step-level machine, with its working registers and loops, and the transaction-level functions give the
same responses and refusals. -/
def Obligations.StepLevelAgreesWithTransactionLevel : Prop :=
  ∀ (i : Instr) (s : State), exec i s =
    match respond s.capacity i with
    | .ok r => .next { s with response := r, working := Working.initial }
    | .error ρ => .refused ρ

/-! ## CRC-4/ITU -/

/-- R63, R65: CRC4, bit by bit over the data, bit 0 of each byte first; and its refusal. -/
def Obligations.Crc4Operation : Prop :=
  ∀ (data : Bytes) (s : State),
    (data.length ≤ s.capacity.maxBufLen →
      exec (.crc4 data) s = .next { s with
        response := { Response.unspecified with
          status := some 0x00#8
          crc := some (BitVec.setWidth 8 ((data.flatMap fun b => (List.range 8).map fun k => b.getLsbD k).foldl
            (fun (crc : BitVec 4) bit => (crc >>> 1) ^^^ (if (crc.getLsbD 0 ^^ bit) = true then 0b1100#4 else 0b0000#4)) 0x0#4)) }
        working := Working.initial }) ∧
    (s.capacity.maxBufLen < data.length → exec (.crc4 data) s = .refused .dataBeyondCapacity)

/-- R64: the table is derived from the bit form, and the byte-wise form gives the same register value after each byte. -/
def Obligations.CrcTableFormAgrees : Prop :=
  crcTable.length = 256 ∧ (∀ x : Byte, crcTableAt x = crcByte 0x0#4 x) ∧ ∀ bs : Bytes, crc4ByTable bs = crc4 bs

/-- R66 (a) to (d). -/
def Obligations.CrcProperties : Prop :=
  (∀ bs : Bytes, ((crc4 bs).setWidth 8 : Byte).toNat ≤ 15) ∧
  (∀ a b : Bytes, a.length = b.length → crc4 (List.zipWith (· ^^^ ·) a b) = crc4 a ^^^ crc4 b) ∧
  (∀ (n : Nat) (bs : Bytes), crc4 (List.replicate n 0x00#8 ++ bs) = crc4 bs) ∧
  (∀ a b : Bytes, crc4 (a ++ b) = crcFeed (crc4 a) b)

/-- R62, R67: the check value of "123456789", and the CRC of the source's literal vector. -/
def Obligations.CrcKnownValues : Prop :=
  crc4 [0x31#8, 0x32#8, 0x33#8, 0x34#8, 0x35#8, 0x36#8, 0x37#8, 0x38#8, 0x39#8] = 0x7#4 ∧
  crc4 [0xB0#8, 0x20#8, 0x45#8, 0x6C#8, 0x79#8, 0x6F#8, 0x72#8, 0x62#8, 0x65#8, 0x6B#8, 0x48#8, 0x69#8] = 0xA#4

/-! ## Header -/

/-- R68: HDR_PACK packs the fields as given, with the layout of R47, and gives the two bytes of the result. -/
def Obligations.HdrPackOperation : Prop :=
  ∀ (f : BitVec 3) (n : BitVec 4) (t : BitVec 5) (c : BitVec 4) (s : State), ∃ h : BitVec 16,
    h.toNat = f.toNat * 2 ^ 13 + n.toNat * 2 ^ 9 + t.toNat * 2 ^ 4 + c.toNat ∧
    exec (.hdrPack f n t c) s = .next { s with
      response := { Response.unspecified with status := some 0x00#8, hdrOut := some h }, working := Working.initial } ∧
    ({ Response.unspecified with hdrOut := some h } : Response).field .ob0 = some (.word 8 (h.toNat / 256)) ∧
    ({ Response.unspecified with hdrOut := some h } : Response).field .ob1 = some (.word 8 (h.toNat % 256))

/-- R69: HDR_UNPACK extracts the four fields of any 16-bit value. -/
def Obligations.HdrUnpackOperation : Prop :=
  ∀ (h : BitVec 16) (s : State), exec (.hdrUnpack h) s = .next { s with
    response := { Response.unspecified with
      status := some 0x00#8
      uFlag := some (BitVec.ofNat 3 (h.toNat / 2 ^ 13)), uNameLen := some (BitVec.ofNat 4 (h.toNat / 2 ^ 9))
      uTextLen := some (BitVec.ofNat 5 (h.toNat / 2 ^ 4)), uCrc4 := some (BitVec.ofNat 4 h.toNat) }
    working := Working.initial }

/-- R70: HDR_PACK and HDR_UNPACK undo one another, as operations of the machine. -/
def Obligations.HdrPackAndUnpackAreInverse : Prop :=
  (∀ (f : BitVec 3) (n : BitVec 4) (t : BitVec 5) (c : BitVec 4) (s : State), ∃ (h : BitVec 16) (u v : State),
    exec (.hdrPack f n t c) s = .next u ∧ u.response.hdrOut = some h ∧ exec (.hdrUnpack h) u = .next v ∧
    v.response.uFlag = some f ∧ v.response.uNameLen = some n ∧ v.response.uTextLen = some t ∧ v.response.uCrc4 = some c) ∧
  (∀ (h : BitVec 16) (s : State), ∃ (f : BitVec 3) (n : BitVec 4) (t : BitVec 5) (c : BitVec 4) (u v : State),
    exec (.hdrUnpack h) s = .next u ∧ u.response.uFlag = some f ∧ u.response.uNameLen = some n ∧
    u.response.uTextLen = some t ∧ u.response.uCrc4 = some c ∧ exec (.hdrPack f n t c) u = .next v ∧
    v.response.hdrOut = some h)

/-- R31, R48: where each bit of each field stands in the two bytes, and the range of a valid packet's byte0. -/
def Obligations.HeaderByteLayout : Prop :=
  ∀ h : Header, ∃ b0 b1 : Byte, h.bytes = [b0, b1] ∧
    b0.getLsbD 7 = h.flag.getLsbD 2 ∧ b0.getLsbD 6 = h.flag.getLsbD 1 ∧ b0.getLsbD 5 = h.flag.getLsbD 0 ∧
    b0.getLsbD 4 = h.nameLen.getLsbD 3 ∧ b0.getLsbD 3 = h.nameLen.getLsbD 2 ∧ b0.getLsbD 2 = h.nameLen.getLsbD 1 ∧
    b0.getLsbD 1 = h.nameLen.getLsbD 0 ∧ b0.getLsbD 0 = h.textLen.getLsbD 4 ∧
    b1.getLsbD 7 = h.textLen.getLsbD 3 ∧ b1.getLsbD 6 = h.textLen.getLsbD 2 ∧ b1.getLsbD 5 = h.textLen.getLsbD 1 ∧
    b1.getLsbD 4 = h.textLen.getLsbD 0 ∧ b1.getLsbD 3 = h.crc4.getLsbD 3 ∧ b1.getLsbD 2 = h.crc4.getLsbD 2 ∧
    b1.getLsbD 1 = h.crc4.getLsbD 1 ∧ b1.getLsbD 0 = h.crc4.getLsbD 0 ∧
    (h.flag = 0b101#3 → 0xA0 ≤ b0.toNat ∧ b0.toNat ≤ 0xBF)

/-- R49: the fields, from the two bytes. -/
def Obligations.HeaderFieldsFromBytes : Prop :=
  ∀ b0 b1 : Byte, (Header.ofBytes b0 b1).flag = b0.extractLsb' 5 3 ∧ (Header.ofBytes b0 b1).nameLen = b0.extractLsb' 1 4 ∧
    (Header.ofBytes b0 b1).textLen = b0.extractLsb' 0 1 ++ b1.extractLsb' 4 4 ∧
    (Header.ofBytes b0 b1).crc4 = b1.extractLsb' 0 4

/-- R54: a packet has 2 to 48 bytes, and the header alone fixes how many. -/
def Obligations.PacketSizeBounds : Prop :=
  ∀ h : Header, h.packetSize = 2 + h.nameLen.toNat + h.textLen.toNat ∧ 2 ≤ h.packetSize ∧ h.packetSize ≤ 48

/-- R71: the masked write of the crc4 nibble: what it writes, what it leaves, and that the header it gives is the one HDR_PACK
gives for the CRC. -/
def Obligations.CrcNibbleInsert : Prop :=
  (∀ (S : Bytes) (p : Nat) (c : BitVec 4) (b1 : Byte), S[p + 1]? = some b1 → ∃ S' : Bytes,
    insertCrc S p c = .ok S' ∧ S'.length = S.length ∧ (∀ j, j ≠ p + 1 → S'[j]? = S[j]?) ∧
    S'[p + 1]? = some ((b1 &&& 0xF0#8) ||| c.setWidth 8) ∧
    ((b1 &&& 0xF0#8) ||| c.setWidth 8).extractLsb' 4 4 = b1.extractLsb' 4 4 ∧
    ((b1 &&& 0xF0#8) ||| c.setWidth 8).extractLsb' 0 4 = c) ∧
  (∀ (h : Header) (rest : Bytes) (c : BitVec 4),
    insertCrc (h.bytes ++ rest) 0 c = .ok (({ h with crc4 := c } : Header).bytes ++ rest))

/-- R60: the pseudo-operations stand for the operations the table gives. -/
def Obligations.PseudoOperationsExpand : Prop :=
  (∀ (n : BitVec 4) (t : BitVec 5), (Pseudo.prehdr n t).expand = .hdrPack 0b101#3 n t 0#4) ∧
  (∀ (n : BitVec 4) (t : BitVec 5) (c : BitVec 4), (Pseudo.finhdr n t c).expand = .hdrPack 0b101#3 n t c) ∧
  (∀ b : Bytes, (Pseudo.check b).expand = .decode b)

/-- R59, R60, R61: a line of the notation is transcribed into the encoding of the operation it writes, a pseudo-operation's line into
that of its expansion, and `.req` into its raw cmd with no operands.  Then each operand form: what a number, hex bytes, a quoted
ASCII string and a field of an earlier result stand for, and the lines of every operation with any operands that stand for its
values.  That `hdr` takes every operand that stands for two bytes, and that a natural of a result is a number, are the model's
choice (log entry 16). -/
def Obligations.ProgramLinesTranscribe : Prop :=
  ∀ (env : Bindings) (label : Option String),
    (∀ i : Instr, (Line.ofInstr label i).transcribe env = .ok (encode i)) ∧
    (∀ (n : BitVec 4) (t : BitVec 5), Line.transcribe env ⟨label, .prehdr, [.number n.toNat, .number t.toNat]⟩ =
      .ok (encode (.hdrPack 0b101#3 n t 0#4))) ∧
    (∀ (n : BitVec 4) (t : BitVec 5) (c : BitVec 4),
      Line.transcribe env ⟨label, .finhdr, [.number n.toNat, .number t.toNat, .number c.toNat]⟩ =
        .ok (encode (.hdrPack 0b101#3 n t c))) ∧
    (∀ b : Bytes, Line.transcribe env ⟨label, .check, [.hex b]⟩ = .ok (encode (.decode b))) ∧
    (∀ cmd : Byte, Line.transcribe env ⟨label, .req cmd, []⟩ = .ok ⟨cmd, []⟩) ∧
    (∀ v : Nat, evalOperand env (.number v) = .ok (.inl v)) ∧
    (∀ b : Bytes, evalOperand env (.hex b) = .ok (.inr b)) ∧
    (∀ cs : List Char, (∀ c ∈ cs, c.toNat < 128) →
      evalOperand env (.ascii cs) = .ok (.inr (cs.map fun c => BitVec.ofNat 8 c.toNat))) ∧
    (∀ (l : String) (f : ResponseField) (r : Response), env.lookup l = some r →
      (∀ w v, r.field f = some (.word w v) → evalOperand env (.result l f) = .ok (.inl v)) ∧
      (∀ v, r.field f = some (.natural v) → evalOperand env (.result l f) = .ok (.inl v)) ∧
      (∀ b, r.field f = some (.bytes b) → evalOperand env (.result l f) = .ok (.inr b))) ∧
    (∀ (o : LineOperand) (b : Bytes), evalOperand env o = .ok (.inr b) →
      Line.transcribe env ⟨label, .crc4, [o]⟩ = .ok (encode (.crc4 b)) ∧
      Line.transcribe env ⟨label, .chunk, [o]⟩ = .ok (encode (.chunk b)) ∧
      Line.transcribe env ⟨label, .decode, [o]⟩ = .ok (encode (.decode b)) ∧
      Line.transcribe env ⟨label, .check, [o]⟩ = .ok (encode (.decode b)) ∧
      ∀ (p : LineOperand) (c : Bytes), evalOperand env p = .ok (.inr c) →
        Line.transcribe env ⟨label, .encode, [o, p]⟩ = .ok (encode (.encode b c))) ∧
    (∀ (o : LineOperand) (h : BitVec 16),
      (evalOperand env o = .ok (.inl h.toNat) ∨
        evalOperand env o = .ok (.inr [h.extractLsb' 8 8, h.extractLsb' 0 8])) →
      Line.transcribe env ⟨label, .hdrUnpack, [o]⟩ = .ok (encode (.hdrUnpack h))) ∧
    (∀ (o p q k : LineOperand) (f : BitVec 3) (n : BitVec 4) (t : BitVec 5) (c : BitVec 4),
      evalOperand env o = .ok (.inl f.toNat) → evalOperand env p = .ok (.inl n.toNat) →
      evalOperand env q = .ok (.inl t.toNat) → evalOperand env k = .ok (.inl c.toNat) →
        Line.transcribe env ⟨label, .hdrPack, [o, p, q, k]⟩ = .ok (encode (.hdrPack f n t c)) ∧
        Line.transcribe env ⟨label, .prehdr, [p, q]⟩ = .ok (encode (.hdrPack 0b101#3 n t 0#4)) ∧
        Line.transcribe env ⟨label, .finhdr, [p, q, k]⟩ = .ok (encode (.hdrPack 0b101#3 n t c)))

/-- R59, R103: a number that does not fit its field, and a field of an earlier result that must not be read, are refused. -/
def Obligations.BadProgramOperandsAreRefused : Prop :=
  (∀ (env : Bindings) (w v : Nat), 2 ^ w ≤ v →
    transcribeOperand env (.field w) (.number v) = .error (.doesNotFit w v)) ∧
  (∀ (env : Bindings) (v : Nat), 2 ^ 16 ≤ v → transcribeOperand env .header (.number v) = .error (.doesNotFit 16 v)) ∧
  (∀ (env : Bindings) (k : OperandKind) (l : String) (f : ResponseField) (r : Response), env.lookup l = some r →
    r.field f = none → transcribeOperand env k (.result l f) = .error (.unspecifiedResult f))

/-! ## Chunker -/

/-- R73, R75: CHUNK, with the ranges in closed form; and its refusal. -/
def Obligations.ChunkOperation : Prop :=
  ∀ (text : Bytes) (s : State),
    (text.length ≤ s.capacity.maxTextLen →
      exec (.chunk text) s = .next { s with
        response := { Response.unspecified with
          status := some 0x00#8
          nChunks := some ((text.length + 30) / 31)
          chunks := some ((List.range ((text.length + 30) / 31)).map fun i => (31 * i, min 31 (text.length - 31 * i))) }
        working := Working.initial }) ∧
    (s.capacity.maxTextLen < text.length → exec (.chunk text) s = .refused .textBeyondCapacity)

/-- R76, R73: the ranges CHUNK reports for a non-empty text cover it exactly once, in order, with no overlap. -/
def Obligations.ChunksCoverTheText : Prop :=
  ∀ (text : Bytes) (s t : State) (l : List (Nat × Nat)), 1 ≤ text.length →
    exec (.chunk text) s = .next t → t.response.chunks = some l →
      1 ≤ l.length ∧ (l.map (·.2)).sum = text.length ∧
      (∀ i (a b : Nat × Nat), l[i]? = some a → l[i + 1]? = some b → b.1 = a.1 + a.2) ∧
      (∀ r ∈ l, 1 ≤ r.2 ∧ r.2 ≤ 31) ∧ l[0]?.map (·.1) = some 0 ∧
      (l.flatMap fun r => (text.drop r.1).take r.2) = text

/-- R74: an exact multiple of 31 gives no trailing empty chunk; one byte more gives one more chunk, of length 1. -/
def Obligations.NoTrailingEmptyChunk : Prop :=
  ∀ (text : Bytes) (k : Nat) (s : State), text.length ≤ s.capacity.maxTextLen → 1 ≤ k →
    (text.length = 31 * k → ∃ t l, exec (.chunk text) s = .next t ∧ t.response.nChunks = some k ∧
      t.response.chunks = some l ∧ l.length = k ∧ ∀ r ∈ l, r.2 = 31) ∧
    (text.length = 31 * k + 1 → ∃ t l, exec (.chunk text) s = .next t ∧ t.response.nChunks = some (k + 1) ∧
      t.response.chunks = some (l ++ [(31 * k, 1)]) ∧ l.length = k ∧ ∀ r ∈ l, r.2 = 31)

/-! ## Encoder -/

/-- R77: ENCODE's checks, in order; the first that fails is reported and nothing else. -/
def Obligations.EncodeChecksInOrder : Prop :=
  ∀ (name text : Bytes) (s : State), text.length ≤ s.capacity.maxTextLen →
    (name.length = 0 → exec (.encode name text) s = .next { s with
      response := { Response.unspecified with status := some 0x01#8 }, working := Working.initial }) ∧
    (15 < name.length → exec (.encode name text) s = .next { s with
      response := { Response.unspecified with status := some 0x03#8 }, working := Working.initial }) ∧
    (1 ≤ name.length → name.length ≤ 15 → text.length = 0 → exec (.encode name text) s = .next { s with
      response := { Response.unspecified with status := some 0x02#8 }, working := Working.initial })

/-- R78 to R80: ENCODE of a valid message within the capacities: for each chunk, in order, the pre-CRC packet with the CRC of all of
it put into the low nibble of its second byte; and ENCODE's two refusals. -/
def Obligations.EncodeOperation : Prop :=
  ∀ (name text : Bytes) (s : State),
    (s.capacity.maxTextLen < text.length → exec (.encode name text) s = .refused .textBeyondCapacity) ∧
    (text.length ≤ s.capacity.maxTextLen → 1 ≤ name.length → name.length ≤ 15 → 1 ≤ text.length →
      (s.capacity.maxBufLen < (text.length + 30) / 31 * (2 + name.length) + text.length →
        exec (.encode name text) s = .refused .outputBeyondCapacity) ∧
      ((text.length + 30) / 31 * (2 + name.length) + text.length ≤ s.capacity.maxBufLen →
        exec (.encode name text) s = .next { s with
          response := { Response.unspecified with
            status := some 0x00#8
            out := some ((List.range ((text.length + 30) / 31)).flatMap fun i =>
              let chunk := (text.drop (31 * i)).take (min 31 (text.length - 31 * i))
              let H0 : BitVec 16 := 0b101#3 ++ BitVec.ofNat 4 name.length ++ BitVec.ofNat 5 chunk.length ++ 0b0000#4
              let c := crc4 ([H0.extractLsb' 8 8, H0.extractLsb' 0 8] ++ name ++ chunk)
              [H0.extractLsb' 8 8, (H0.extractLsb' 0 8 &&& 0xF0#8) ||| c.setWidth 8] ++ name ++ chunk) }
          working := Working.initial }))

/-- R81, R50, R53: the output of a successful ENCODE, read as a buffer: its length, and at each packet's offset a header with the
flag, the two lengths and the CRC of the packet with its nibble zeroed, then the name and the chunk. -/
def Obligations.EncodedBufferLayout : Prop :=
  ∀ (name text out : Bytes) (s t : State), exec (.encode name text) s = .next t → t.response.out = some out →
    out.length = (text.length + 30) / 31 * (2 + name.length) + text.length ∧
    ∀ i, i < (text.length + 30) / 31 → ∃ (b0 b1 : Byte) (chunk : Bytes),
      chunk = (text.drop (31 * i)).take 31 ∧
      (out.drop (i * (2 + name.length + 31))).take (2 + name.length + chunk.length) = [b0, b1] ++ name ++ chunk ∧
      (Header.ofBytes b0 b1).flag = 0b101#3 ∧ (Header.ofBytes b0 b1).nameLen.toNat = name.length ∧
      (Header.ofBytes b0 b1).textLen.toNat = chunk.length ∧
      1 ≤ name.length ∧ name.length ≤ 15 ∧ 1 ≤ chunk.length ∧ chunk.length ≤ 31 ∧
      (Header.ofBytes b0 b1).crc4 = crc4 ([b0, b1 &&& 0xF0#8] ++ name ++ chunk)

/-- R82: DECODE of what ENCODE gives returns the name and the text. -/
def Obligations.EncodeThenDecodeRoundTrip : Prop :=
  ∀ (name text : Bytes) (s : State), 1 ≤ name.length → name.length ≤ 15 → 1 ≤ text.length →
    text.length ≤ s.capacity.maxTextLen →
    (text.length + 30) / 31 * (2 + name.length) + text.length ≤ s.capacity.maxBufLen →
      ∃ (t u : State) (out : Bytes), exec (.encode name text) s = .next t ∧ t.response.status = some 0x00#8 ∧
        t.response.out = some out ∧ exec (.decode out) t = .next u ∧ u.response.status = some 0x00#8 ∧
        u.response.dName = some name ∧ u.response.dText = some text

/-! ## Decoder -/

/-- R83: a buffer shorter than one header. -/
def Obligations.DecodeOfShortBuffer : Prop :=
  ∀ (buf : Bytes) (s : State), buf.length < 2 → buf.length ≤ s.capacity.maxBufLen →
    exec (.decode buf) s = .next { s with
      response := { Response.unspecified with status := some 0x04#8 }, working := Working.initial }

/-- R94, R100: a buffer beyond MAX_BUF_LEN. -/
def Obligations.DecodeBeyondCapacityRefused : Prop :=
  ∀ (buf : Bytes) (s : State), s.capacity.maxBufLen < buf.length →
    exec (.decode buf) s = .refused .bufBeyondCapacity

/-- R85: one byte left at the cursor after a run of valid packets. -/
def Obligations.LoneTrailingByteIsInvalidBuffer : Prop :=
  ∀ (a : Bytes) (b : Byte) (s : State), ValidRun s a → a.length + 1 ≤ s.capacity.maxBufLen →
    exec (.decode (a ++ [b])) s = .next { s with
      response := { Response.unspecified with status := some 0x04#8 }, working := Working.initial }

/-- R87 to R89, in the order of R102: the checks of the packet at the cursor, after a run of valid packets and whatever stands
behind the packet. -/
def Obligations.PacketChecksInOrder : Prop :=
  ∀ (a rest : Bytes) (b0 b1 : Byte) (s : State), ValidRun s a →
    (a ++ b0 :: b1 :: rest).length ≤ s.capacity.maxBufLen →
    ((Header.ofBytes b0 b1).flag ≠ 0b101#3 → exec (.decode (a ++ b0 :: b1 :: rest)) s = .next { s with
      response := { Response.unspecified with status := some 0x05#8 }, working := Working.initial }) ∧
    ((Header.ofBytes b0 b1).flag = 0b101#3 → (b0 :: b1 :: rest).length < (Header.ofBytes b0 b1).packetSize →
      exec (.decode (a ++ b0 :: b1 :: rest)) s = .next { s with
        response := { Response.unspecified with status := some 0x04#8 }, working := Working.initial }) ∧
    ((Header.ofBytes b0 b1).flag = 0b101#3 → (Header.ofBytes b0 b1).packetSize ≤ (b0 :: b1 :: rest).length →
      crc4 ([b0, b1 &&& 0xF0#8] ++ rest.take ((Header.ofBytes b0 b1).packetSize - 2)) ≠ (Header.ofBytes b0 b1).crc4 →
      exec (.decode (a ++ b0 :: b1 :: rest)) s = .next { s with
        response := { Response.unspecified with status := some 0x06#8 }, working := Working.initial })

/-- R86, R90 to R93: a packet that passes the three checks is accepted, whatever its lengths and its name: its text is appended, and
its name is taken if it is the first packet. -/
def Obligations.ValidPacketIsAppended : Prop :=
  ∀ (name text : Bytes) (b0 b1 : Byte) (s : State),
    (Header.ofBytes b0 b1).flag = 0b101#3 → (Header.ofBytes b0 b1).nameLen.toNat = name.length →
    (Header.ofBytes b0 b1).textLen.toNat = text.length →
    crc4 ([b0, b1 &&& 0xF0#8] ++ name ++ text) = (Header.ofBytes b0 b1).crc4 →
    ((2 + name.length + text.length ≤ s.capacity.maxBufLen →
      exec (.decode ([b0, b1] ++ name ++ text)) s = .next { s with
        response := { Response.unspecified with status := some 0x00#8, dName := some name, dText := some text }
        working := Working.initial }) ∧
    ∀ a name0 text0 : Bytes, DecodesTo s a name0 text0 →
      a.length + 2 + name.length + text.length ≤ s.capacity.maxBufLen →
      exec (.decode (a ++ [b0, b1] ++ name ++ text)) s = .next { s with
        response := { Response.unspecified with status := some 0x00#8, dName := some name0, dText := some (text0 ++ text) }
        working := Working.initial })

/-- R90, R91, R93: two buffers that decode, one behind the other, decode to the first one's name and both texts. -/
def Obligations.ConcatenatedBuffersDecode : Prop :=
  ∀ (a b name1 text1 name2 text2 : Bytes) (s : State), DecodesTo s a name1 text1 → DecodesTo s b name2 text2 →
    a.length + b.length ≤ s.capacity.maxBufLen → DecodesTo s (a ++ b) name1 (text1 ++ text2)

/-- R97: what a change of a valid packet's header bytes gives: of the flag (a), of the crc4 nibble (b), and of the nibble to zero
(c).  The packet stands after a run of valid packets, with anything behind it. -/
def Obligations.HeaderCorruptionIsDetected : Prop :=
  ∀ (a rest : Bytes) (b0 b1 c0 c1 : Byte) (s : State), ValidRun s a → ValidRun s (a ++ b0 :: b1 :: rest) →
    ((Header.ofBytes c0 c1).flag ≠ 0b101#3 → exec (.decode (a ++ c0 :: c1 :: rest)) s = .next { s with
      response := { Response.unspecified with status := some 0x05#8 }, working := Working.initial }) ∧
    (c1 ≠ b1 → c1 &&& 0xF0#8 = b1 &&& 0xF0#8 → exec (.decode (a ++ b0 :: c1 :: rest)) s = .next { s with
      response := { Response.unspecified with status := some 0x06#8 }, working := Working.initial }) ∧
    ((Header.ofBytes b0 b1).crc4 ≠ 0x0#4 ↔ exec (.decode (a ++ b0 :: (b1 &&& 0xF0#8) :: rest)) s = .next { s with
      response := { Response.unspecified with status := some 0x06#8 }, working := Working.initial }) ∧
    ((Header.ofBytes b0 b1).crc4 = 0x0#4 → b1 &&& 0xF0#8 = b1)
end

