-- ==== Sys2Proof/Laws/State.lean ====
section
/-! SUPPORT. One lemma per field per update of the state, and the fields of the fixed responses. -/

namespace Sys2Proof.Machine

@[simp] theorem State.start_capacity (s : State) : s.start.capacity = s.capacity := rfl
@[simp] theorem State.start_request (s : State) : s.start.request = s.request := rfl
@[simp] theorem State.start_response (s : State) : s.start.response = s.response := rfl
@[simp] theorem State.start_working (s : State) : s.start.working = Working.initial := rfl
@[simp] theorem State.start_inbox (s : State) : s.start.inbox = s.inbox := rfl
@[simp] theorem State.start_hostRead (s : State) : s.start.hostRead = s.hostRead := rfl

@[simp] theorem State.deliver_capacity (s : State) (r : Response) : (s.deliver r).capacity = s.capacity := rfl
@[simp] theorem State.deliver_request (s : State) (r : Response) : (s.deliver r).request = s.request := rfl
@[simp] theorem State.deliver_response (s : State) (r : Response) : (s.deliver r).response = r := rfl
@[simp] theorem State.deliver_working (s : State) (r : Response) : (s.deliver r).working = Working.initial := rfl
@[simp] theorem State.deliver_inbox (s : State) (r : Response) : (s.deliver r).inbox = s.inbox := rfl
@[simp] theorem State.deliver_hostRead (s : State) (r : Response) : (s.deliver r).hostRead = s.hostRead := rfl

/-- The abort is the delivery of the error's response. -/
theorem State.abort_eq_deliver (s : State) (e : ErrorCode) : s.abort e = s.deliver (Response.error e) := rfl

@[simp] theorem State.abort_capacity (s : State) (e : ErrorCode) : (s.abort e).capacity = s.capacity := rfl
@[simp] theorem State.abort_request (s : State) (e : ErrorCode) : (s.abort e).request = s.request := rfl
@[simp] theorem State.abort_response (s : State) (e : ErrorCode) : (s.abort e).response = Response.error e := rfl
@[simp] theorem State.abort_working (s : State) (e : ErrorCode) : (s.abort e).working = Working.initial := rfl
@[simp] theorem State.abort_inbox (s : State) (e : ErrorCode) : (s.abort e).inbox = s.inbox := rfl
@[simp] theorem State.abort_hostRead (s : State) (e : ErrorCode) : (s.abort e).hostRead = s.hostRead := rfl

@[simp] theorem State.accept_capacity (s : State) (r : EncodedRequest) : (s.accept r).capacity = s.capacity := rfl
@[simp] theorem State.accept_request (s : State) (r : EncodedRequest) : (s.accept r).request = some r := rfl
@[simp] theorem State.accept_response (s : State) (r : EncodedRequest) : (s.accept r).response = s.response := rfl
@[simp] theorem State.accept_working (s : State) (r : EncodedRequest) : (s.accept r).working = s.working := rfl
@[simp] theorem State.accept_inbox (s : State) (r : EncodedRequest) : (s.accept r).inbox = s.inbox := rfl
@[simp] theorem State.accept_hostRead (s : State) (r : EncodedRequest) : (s.accept r).hostRead = s.hostRead := rfl

@[simp] theorem State.applyReset_capacity (s : State) : s.applyReset.capacity = s.capacity := rfl
@[simp] theorem State.applyReset_request (s : State) : s.applyReset.request = none := rfl
@[simp] theorem State.applyReset_response (s : State) : s.applyReset.response = Response.unspecified := rfl
@[simp] theorem State.applyReset_working (s : State) : s.applyReset.working = Working.initial := rfl
@[simp] theorem State.applyReset_inbox (s : State) : s.applyReset.inbox = s.inbox := rfl
@[simp] theorem State.applyReset_hostRead (s : State) : s.applyReset.hostRead = s.hostRead := rfl

@[simp] theorem State.withFetchWord_inbox (s : State) (nbits w : Nat) :
    (s.withFetchWord nbits w).inbox = .request (tableRequest w) :: s.inbox := rfl

@[simp] theorem Working.computeCrc_crc (w : Working) (bs : Bytes) : (w.computeCrc bs).crc = crc4 bs := rfl
@[simp] theorem Working.computeCrc_hdr (w : Working) (bs : Bytes) : (w.computeCrc bs).hdr = w.hdr := rfl
@[simp] theorem Working.computeCrc_enc (w : Working) (bs : Bytes) : (w.computeCrc bs).enc = w.enc := rfl
@[simp] theorem Working.computeCrc_dec (w : Working) (bs : Bytes) : (w.computeCrc bs).dec = w.dec := rfl
@[simp] theorem Working.computeCrc_chk (w : Working) (bs : Bytes) : (w.computeCrc bs).chk = w.chk := rfl

@[simp] theorem Response.ok_status : Response.ok.status = some statusOk := rfl
@[simp] theorem Response.error_status (e : ErrorCode) : (Response.error e).status = some e.status := rfl

/-- An error's status is never OK. -/
theorem ErrorCode.status_ne_ok (e : ErrorCode) : e.status ≠ statusOk := by cases e <;> decide

/-- No response field but the status is specified after an error (R103). -/
theorem Response.error_field (e : ErrorCode) (f : ResponseField) (h : f ≠ .status) : (Response.error e).field f = none := by
  cases f <;> first | rfl | exact absurd rfl h

@[simp] theorem Response.unspecified_field (f : ResponseField) : Response.unspecified.field f = none := by cases f <;> rfl

end Sys2Proof.Machine
end

