-- ==== Sys2Proof/Laws/Ops.lean ====
section
/-! SUPPORT. What each shared operation does: MemRead, MemWrite, the crc4 nibble, the end of an operation, the header's bytes. -/

namespace Sys2Proof.Machine

/-- MemRead inside the sequence gives the slice. -/
theorem memRead_ok (B : Bytes) (off n : Nat) (h : off + n ≤ B.length) : memRead B off n = .ok ((B.drop off).take n) := by
  simp [memRead, h]

/-- What MemRead gives has the length asked for. -/
theorem memRead_length {B : Bytes} {off n : Nat} {v : Bytes} (h : memRead B off n = .ok v) : v.length = n := by
  unfold memRead at h
  split at h
  · cases h; simp; omega
  · cases h

theorem readByte_ok {B : Bytes} {off : Nat} {b : Byte} (h : B[off]? = some b) : readByte B off = .ok b := by
  simp [readByte, h]

/-- MemWrite inside the sequence replaces the bytes written and keeps the others. -/
theorem memWrite_ok (O : Bytes) (off : Nat) (v : Bytes) (h : off + v.length ≤ O.length) :
    memWrite O off v = .ok (O.take off ++ v ++ O.drop (off + v.length)) := by
  simp [memWrite, h]

/-- The crc4 nibble of a packet is written in its second byte. -/
theorem insertCrc_cons (b0 b1 : Byte) (rest : Bytes) (c : BitVec 4) :
    insertCrc (b0 :: b1 :: rest) 0 c = .ok (b0 :: setCrcNibble b1 c :: rest) := by
  simp [insertCrc, readByte, memWrite, bind, Except.bind]

/-- An operation whose working steps succeed delivers its response. -/
@[simp] theorem State.finish_ok (s : State) (w : Working) (f : Working → Response) :
    s.finish (.ok w) f = .next (s.deliver (f w)) := rfl

/-- An operation that raises an error aborts. -/
@[simp] theorem State.finish_raise (s : State) (e : ErrorCode) (f : Working → Response) :
    s.finish (raise e) f = .next (s.abort e) := rfl

/-- Everything the end of an operation can be. -/
theorem State.finish_next {s t : State} {r : Except Abort Working} {f : Working → Response} (h : s.finish r f = .next t) :
    (∃ w, r = .ok w ∧ t = s.deliver (f w)) ∨ ∃ e, r = raise e ∧ t = s.abort e := by
  unfold State.finish at h
  split at h
  · cases h; exact .inl ⟨_, rfl, rfl⟩
  · cases h; exact .inr ⟨_, rfl, rfl⟩
  · cases h

@[simp] theorem Header.bytes_length (h : Header) : h.bytes.length = 2 := rfl

/-- The two bytes of a header value, put together again (R31). -/
@[simp] theorem headerByte0_append_headerByte1 (v : BitVec 16) : headerByte0 v ++ headerByte1 v = v := by
  unfold headerByte0 headerByte1
  rw [BitVec.extractLsb'_append_extractLsb'_eq_extractLsb' (by decide)]
  simp

/-- The value of a packed header (R47). -/
theorem Header.pack_toNat (h : Header) :
    h.pack.toNat = h.flag.toNat * 2 ^ 13 + h.nameLen.toNat * 2 ^ 9 + h.textLen.toNat * 2 ^ 4 + h.crc4.toNat := by
  have := h.flag.isLt
  have := h.nameLen.isLt
  have := h.textLen.isLt
  have := h.crc4.isLt
  simp only [Header.pack, BitVec.toNat_append]
  rw [← Nat.shiftLeft_add_eq_or_of_lt (by omega), ← Nat.shiftLeft_add_eq_or_of_lt (by omega),
    ← Nat.shiftLeft_add_eq_or_of_lt (by omega)]
  simp only [Nat.shiftLeft_eq]
  omega

/-- A packed header unpacks to its fields (R70). -/
@[simp] theorem Header.unpack_pack (h : Header) : Header.unpack h.pack = h := by
  rcases h with ⟨f, n, t, c⟩
  simp only [Header.unpack, Header.pack, Header.mk.injEq]
  refine ⟨?_, ?_, ?_, ?_⟩ <;> ext i hi <;> simp only [BitVec.getElem_extractLsb', BitVec.getLsbD_append] <;>
    (repeat' split) <;> first | omega | (rw [← BitVec.getLsbD_eq_getElem]; congr 1; omega)

/-- A header's two bytes give the header back. -/
@[simp] theorem Header.ofBytes_bytes (h : Header) : Header.ofBytes (headerByte0 h.pack) (headerByte1 h.pack) = h := by
  simp [Header.ofBytes]

/-- The CRC of a prefix is all the rest of the computation needs (R66 d). -/
theorem crcFeed_append (c : BitVec 4) (a b : Bytes) : crcFeed c (a ++ b) = crcFeed (crcFeed c a) b := by
  simp [crcFeed]

end Sys2Proof.Machine
end

