-- ==== Sys2Proof/Laws/Chunker.lean ====
section
/-! SUPPORT. The arithmetic of the chunk ranges and what CHUNK's loop builds. -/

namespace Sys2Proof.Machine

theorem chunkCount_eq (L : Nat) : chunkCount L = (L + 30) / 31 := rfl
theorem chunkOff_eq (i : Nat) : chunkOff i = 31 * i := rfl
theorem chunkLen_eq (L i : Nat) : chunkLen L i = min 31 (L - 31 * i) := rfl

/-- Every chunk of a text has 1 to 31 bytes and lies in the text (R76). -/
theorem chunk_bounds {L i : Nat} (h : i < chunkCount L) :
    1 ≤ chunkLen L i ∧ chunkLen L i ≤ 31 ∧ chunkOff i + chunkLen L i ≤ L := by
  rw [chunkCount_eq] at h
  rw [chunkLen_eq, chunkOff_eq]
  omega

/-- CHUNK's loop appends the ranges of the next `n` chunks and changes nothing else. -/
theorem chunkLoop_eq (n : Nat) (w : Working) :
    chunkLoop n w = { w with chk := { w.chk with
      chunks := w.chk.chunks ++ (List.range' w.chk.idx n).map fun i => (chunkOff i, chunkLen w.chk.len i)
      idx := w.chk.idx + n } } := by
  induction n generalizing w with
  | zero => simp [chunkLoop]
  | succ n ih =>
    rw [chunkLoop, ih]
    simp [chunkStep, List.range'_succ, Nat.add_assoc, Nat.add_comm 1 n]

end Sys2Proof.Machine
end

