-- ==== Sys2Proof/Laws/Decode.lean ====
section
/-! SUPPORT. What each part of the request decoder answers. -/

namespace Sys2Proof

theorem fieldOf_ok_iff (w : Nat) (o : OperandName) (v : Nat) (x : BitVec w) :
    fieldOf w o v = .ok x ↔ x.toNat = v := by
  unfold fieldOf
  split
  · rename_i h
    constructor
    · intro e; cases e; simp [Nat.mod_eq_of_lt h]
    · intro e; subst e; simp
  · rename_i h
    constructor
    · intro e; cases e
    · intro e; subst e; exact absurd x.isLt h

@[simp] theorem fieldOf_toNat (w : Nat) (o : OperandName) (x : BitVec w) : fieldOf w o x.toNat = .ok x :=
  (fieldOf_ok_iff w o _ x).2 rfl

theorem sequenceOf_ok_iff (o : OperandName) (n : Nat) (bs bs' : Bytes) :
    sequenceOf o n bs = .ok bs' ↔ bs.length = n ∧ bs = bs' := by
  unfold sequenceOf
  split <;> simp_all

@[simp] theorem sequenceOf_length (o : OperandName) (bs : Bytes) : sequenceOf o bs.length bs = .ok bs :=
  (sequenceOf_ok_iff o _ bs bs).2 ⟨rfl, rfl⟩

@[simp] theorem hdrOfBytes_split (h : BitVec 16) : hdrOfBytes (h.extractLsb' 8 8) (h.extractLsb' 0 8) = h := by
  unfold hdrOfBytes
  rw [BitVec.extractLsb'_append_extractLsb'_eq_extractLsb' (by decide)]
  simp

end Sys2Proof
end

