-- ==== Sys2Proof/Laws/Decoder.lean ====
section
/-! SUPPORT. DECODE's loop over the cursor, beside the split of the rest of the buffer into packets. -/

namespace Sys2Proof.Machine

/-- The split of a buffer does not depend on the bound, where the bound suffices. -/
theorem splitPackets_bound (n m : Nat) (b : Bytes) (hn : b.length ≤ 2 * n + 1) (hm : b.length ≤ 2 * m + 1) :
    splitPackets n b = splitPackets m b := by
  induction n generalizing m b with
  | zero =>
    match b, m with
    | [], m => simp [splitPackets]
    | [x], 0 => rfl
    | [x], m + 1 => rfl
    | x :: y :: r, _ => simp at hn
  | succ n ih =>
    match b, m with
    | [], m => simp [splitPackets]
    | [x], 0 => rfl
    | [x], m + 1 => rfl
    | x :: y :: r, 0 => simp at hm
    | x :: y :: r, m + 1 =>
      have hn' : r.length ≤ 2 * n + 1 := by simp at hn; omega
      have hm' : r.length ≤ 2 * m + 1 := by simp at hm; omega
      simp only [splitPackets]
      rw [ih m (r.drop _) (by simp; omega) (by simp; omega)]

/-- The split of a run of valid packets with anything behind it: the run's packets and then what is behind. -/
theorem splitPackets_append (k m : Nat) (a b : Bytes) (ps : List (Bytes × Bytes)) (ha : splitPackets k a = .ok ps)
    (hk : a.length ≤ 2 * k + 1) (hm : a.length + b.length ≤ 2 * m + 1) :
    splitPackets m (a ++ b) =
      match splitPackets m b with
      | .ok qs => .ok (ps ++ qs)
      | .error e => .error e := by
  induction m generalizing k a ps with
  | zero =>
    match a with
    | [] => simp [splitPackets] at ha; subst ha; simp; cases splitPackets 0 b <;> rfl
    | [x] => cases k <;> simp [splitPackets] at ha
    | x :: y :: r => simp at hm; omega
  | succ m ih =>
    match a, k with
    | [], _ => simp [splitPackets] at ha; subst ha; simp; cases splitPackets (m + 1) b <;> rfl
    | [x], 0 => simp [splitPackets] at ha
    | [x], _ + 1 => simp [splitPackets] at ha
    | x :: y :: r, 0 => simp at hk
    | x :: y :: r, k + 1 =>
      have hk' : r.length ≤ 2 * k + 1 := by simp at hk; omega
      show splitPackets (m + 1) (x :: y :: (r ++ b)) = _
      simp only [splitPackets] at ha ⊢
      generalize hh : Header.ofBytes x y = h at ha ⊢
      by_cases hf : h.flag ≠ Config.flag
      · rw [if_pos hf] at ha; cases ha
      rw [if_neg hf] at ha ⊢
      by_cases hs : r.length < h.nameLen.toNat + h.textLen.toNat
      · rw [if_pos hs] at ha; cases ha
      have htake : (r ++ b).take (h.nameLen.toNat + h.textLen.toNat) = r.take (h.nameLen.toNat + h.textLen.toNat) :=
        List.take_append_of_le_length (by omega)
      rw [if_neg hs] at ha
      rw [if_neg (by simp; omega), htake]
      obtain ⟨cc, hcc⟩ : ∃ cc, crc4 ([x, clearCrcNibble y] ++ r.take (h.nameLen.toNat + h.textLen.toNat)) = cc := ⟨_, rfl⟩
      rw [hcc] at ha ⊢
      clear hcc
      by_cases hcc : cc ≠ h.crc4
      · rw [if_pos hcc] at ha; cases ha
      rw [if_neg hcc] at ha ⊢
      rw [List.drop_append_of_le_length (by omega)]
      split at ha
      · rename_i ps' hps
        cases ha
        rw [ih k _ ps' hps (by simp; omega) (by simp at hm ⊢; omega),
          splitPackets_bound m (m + 1) b (by simp at hm; omega) (by simp at hm; omega)]
        cases splitPackets (m + 1) b with
        | error e => rfl
        | ok qs =>
          simp only [List.cons_append]
          rw [List.take_append_of_le_length (by omega), List.drop_append_of_le_length (by omega),
            List.take_append_of_le_length (by simp; omega)]
      · cases ha

/-- Any bound that suffices gives the packets of the buffer. -/
theorem splitPackets_eq_packetsOf (m : Nat) (b : Bytes) (h : b.length ≤ 2 * m + 1) : splitPackets m b = packetsOf b :=
  splitPackets_bound _ _ _ h (by omega)

/-- The packets of a run of valid packets with anything behind it. -/
theorem packetsOf_append (a b : Bytes) (ps : List (Bytes × Bytes)) (ha : packetsOf a = .ok ps) :
    packetsOf (a ++ b) =
      match packetsOf b with
      | .ok qs => .ok (ps ++ qs)
      | .error e => .error e := by
  rw [← splitPackets_eq_packetsOf (a.length + b.length) (a ++ b) (by simp; omega),
    ← splitPackets_eq_packetsOf (a.length + b.length) b (by omega)]
  exact splitPackets_append a.length _ a b ps (by rw [splitPackets_eq_packetsOf _ _ (by omega)]; exact ha)
    (by omega) (by omega)

/-- The first packet's checks, in order, and then the packets behind it. -/
theorem packetsOf_cons (b0 b1 : Byte) (rest : Bytes) :
    packetsOf (b0 :: b1 :: rest) =
      (let h := Header.ofBytes b0 b1
       let size := h.nameLen.toNat + h.textLen.toNat
       if h.flag ≠ Config.flag then .error .invalidFlag
       else if rest.length < size then .error .invalidBuffer
       else if crc4 ([b0, clearCrcNibble b1] ++ rest.take size) ≠ h.crc4 then .error .invalidCrc
       else
         match packetsOf (rest.drop size) with
         | .ok ps => .ok ((rest.take h.nameLen.toNat, (rest.drop h.nameLen.toNat).take h.textLen.toNat) :: ps)
         | .error e => .error e) := by
  rw [← splitPackets_eq_packetsOf (rest.length + 1) (b0 :: b1 :: rest) (by simp)]
  simp only [splitPackets]
  rw [splitPackets_eq_packetsOf rest.length _ (by simp; omega)]
  all_goals rfl

/-- The working state after an accepted packet whose header, name and text are these (R90 to R92). -/
def afterAccept (h : Header) (name text : Bytes) (w : Working) : Working :=
  { w with
    crc := h.crc4
    hdr := h
    dec := { w.dec with
      name := if w.dec.haveName then w.dec.name else name
      haveName := true
      acc := w.dec.acc ++ text
      cur := w.dec.cur + h.packetSize } }

/-- The CRC check, where the packet's bytes are in the buffer (R89). -/
theorem checkPacketCrc_eq {buf body : Bytes} (b0 b1 : Byte) {w : Working}
    (hb : memRead buf (w.dec.cur + 2) (w.hdr.packetSize - 2) = .ok body) :
    checkPacketCrc buf b0 b1 w =
      if crc4 ([b0, clearCrcNibble b1] ++ body) ≠ w.hdr.crc4 then raise .invalidCrc
      else .ok (w.computeCrc ([b0, clearCrcNibble b1] ++ body)) := by
  unfold checkPacketCrc
  rw [hb]
  rfl

/-- A packet that has passed its checks, where its bytes are in the buffer (R90 to R92). -/
theorem acceptPacket_eq {buf name text : Bytes} {w : Working}
    (hn : memRead buf (w.dec.cur + 2) w.hdr.nameLen.toNat = .ok name)
    (ht : memRead buf (w.dec.cur + 2 + w.hdr.nameLen.toNat) w.hdr.textLen.toNat = .ok text) (hc : w.crc = w.hdr.crc4) :
    acceptPacket buf w = .ok (afterAccept w.hdr name text w) := by
  unfold acceptPacket captureName
  rw [hn, ht]
  cases hh : w.dec.haveName <;> simp [afterAccept, bind, Except.bind, ← hc, hh]

/-- One iteration, where two bytes stand at the cursor: the checks of R102 in order, and the packet's effect. -/
theorem decodePacket_cons (buf rest : Bytes) (b0 b1 : Byte) (w : Working) (hl : w.dec.len = buf.length)
    (hd : buf.drop w.dec.cur = b0 :: b1 :: rest) :
    decodePacket buf w =
      (let h := Header.ofBytes b0 b1
       let size := h.nameLen.toNat + h.textLen.toNat
       if h.flag ≠ Config.flag then raise .invalidFlag
       else if rest.length < size then raise .invalidBuffer
       else if crc4 ([b0, clearCrcNibble b1] ++ rest.take size) ≠ h.crc4 then raise .invalidCrc
       else .ok (afterAccept h (rest.take h.nameLen.toNat) ((rest.drop h.nameLen.toNat).take h.textLen.toNat) w)) := by
  have hlen : buf.length = w.dec.cur + (rest.length + 2) := by
    have h := congrArg List.length hd
    simp at h; omega
  have h0 : buf[w.dec.cur]? = some b0 := by
    have h := List.getElem?_drop (xs := buf) (i := w.dec.cur) (j := 0)
    rw [hd] at h; exact h.symm
  have h1 : buf[w.dec.cur + 1]? = some b1 := by
    have h := List.getElem?_drop (xs := buf) (i := w.dec.cur) (j := 1)
    rw [hd] at h; exact h.symm
  have hr (k m : Nat) (hk : k + m ≤ rest.length) :
      memRead buf (w.dec.cur + 2 + k) m = .ok ((rest.drop k).take m) := by
    have h := congrArg (List.drop (2 + k)) hd
    rw [List.drop_drop, ← Nat.add_assoc] at h
    rw [memRead_ok _ _ _ (by omega), h, Nat.add_comm 2 k]; rfl
  have hr0 (m : Nat) (hk : m ≤ rest.length) : memRead buf (w.dec.cur + 2) m = .ok (rest.take m) := by
    simpa using hr 0 m (by omega)
  unfold decodePacket
  rw [if_neg (by omega)]
  simp only [readByte_ok h0, readByte_ok h1, bind, Except.bind]
  generalize Header.ofBytes b0 b1 = h
  by_cases hfl : h.flag ≠ Config.flag
  · rw [if_pos hfl, if_pos hfl]
  rw [if_neg hfl, if_neg hfl]
  by_cases hs : rest.length < h.nameLen.toNat + h.textLen.toNat
  · rw [if_pos (by simp only [Header.packetSize]; omega), if_pos hs]
  have hs' := Nat.le_of_not_lt hs
  rw [if_neg (by simp only [Header.packetSize]; omega), if_neg hs]
  have e2 : h.packetSize - 2 = h.nameLen.toNat + h.textLen.toNat := by simp only [Header.packetSize]; omega
  rw [checkPacketCrc_eq (w := { w with hdr := h }) b0 b1 (by rw [e2]; exact hr0 _ hs')]
  generalize [b0, clearCrcNibble b1] ++ rest.take (h.nameLen.toNat + h.textLen.toNat) = Z
  by_cases hcrc : crc4 Z = h.crc4
  · rw [if_neg (not_not_intro hcrc), if_neg (not_not_intro hcrc)]
    exact acceptPacket_eq (w := Working.computeCrc { w with hdr := h } Z)
      (hr0 h.nameLen.toNat (by omega)) (hr _ _ hs') hcrc
  · rw [if_pos hcrc, if_pos hcrc]
    rfl

/-- The result of DECODE's loop from a cursor, given the split of the bytes from the cursor on. -/
def loopResult (w : Working) : Except ErrorCode (List (Bytes × Bytes)) → Except ErrorCode (Bytes × Bytes)
  | .ok ps => .ok ((if w.dec.haveName then w.dec.name else (messageOf ps).1), w.dec.acc ++ (messageOf ps).2)
  | .error e => .error e

/-- DECODE's loop gives what the split of the rest of the buffer gives: the same error, or the name and the texts. -/
theorem decodeLoop_eq (buf : Bytes) (n m : Nat) (w : Working) (hl : w.dec.len = buf.length) (hc : w.dec.cur ≤ buf.length)
    (hf : w.dec.haveName = false → w.dec.name = [])
    (hn : buf.length - w.dec.cur < 2 * n ∨ w.dec.cur = buf.length) (hm : buf.length - w.dec.cur ≤ 2 * m + 1) :
    match loopResult w (splitPackets m (buf.drop w.dec.cur)) with
    | .ok r => ∃ w', decodeLoop buf n w = .ok w' ∧ w'.dec.name = r.1 ∧ w'.dec.acc = r.2
    | .error e => decodeLoop buf n w = raise e := by
  induction n generalizing m w with
  | zero =>
    have he : w.dec.cur = buf.length := by omega
    have hd : buf.drop w.dec.cur = [] := by simp [he]
    rw [hd]
    cases hh : w.dec.haveName <;> simp [splitPackets, loopResult, messageOf, decodeLoop, hl, he, hh, hf]
  | succ n ih =>
    match hd : buf.drop w.dec.cur with
    | [] =>
      have he : buf.length ≤ w.dec.cur := by simpa using hd
      have he' : ¬ w.dec.cur < w.dec.len := by omega
      cases hh : w.dec.haveName <;> simp [splitPackets, loopResult, messageOf, decodeLoop, he', hh, hf]
    | [x] =>
      have h := congrArg List.length hd
      simp at h
      have h1 : w.dec.cur < w.dec.len := by omega
      have h2 : w.dec.len - w.dec.cur < 2 := by omega
      cases m <;> simp [splitPackets, loopResult, decodeLoop, h1, decodePacket, h2, raise, Except.bind]
    | b0 :: b1 :: rest =>
      have h := congrArg List.length hd
      simp at h
      have h1 : w.dec.cur < w.dec.len := by omega
      obtain ⟨m, rfl⟩ : ∃ k, m = k + 1 := ⟨m - 1, by omega⟩
      rw [decodeLoop, if_pos h1, decodePacket_cons buf rest b0 b1 w hl hd]
      simp only [splitPackets]
      generalize crc4 ([b0, clearCrcNibble b1] ++
          List.take ((Header.ofBytes b0 b1).nameLen.toNat + (Header.ofBytes b0 b1).textLen.toNat) rest) = cc
      by_cases hfl : (Header.ofBytes b0 b1).flag ≠ Config.flag
      · simp only [if_pos hfl, loopResult]; rfl
      by_cases hs : rest.length < (Header.ofBytes b0 b1).nameLen.toNat + (Header.ofBytes b0 b1).textLen.toNat
      · simp only [if_neg hfl, if_pos hs, loopResult]; rfl
      by_cases hcc : cc ≠ (Header.ofBytes b0 b1).crc4
      · simp only [if_neg hfl, if_neg hs, if_pos hcc, loopResult]; rfl
      simp only [if_neg hfl, if_neg hs, if_neg hcc]
      have hdrop : buf.drop (w.dec.cur + (Header.ofBytes b0 b1).packetSize) =
          rest.drop ((Header.ofBytes b0 b1).nameLen.toNat + (Header.ofBytes b0 b1).textLen.toNat) := by
        have h' := congrArg (List.drop (Header.ofBytes b0 b1).packetSize) hd
        rw [List.drop_drop] at h'
        rw [h', Header.packetSize, Nat.add_assoc, Nat.add_comm 2]; rfl
      have := ih m (afterAccept (Header.ofBytes b0 b1) (rest.take (Header.ofBytes b0 b1).nameLen.toNat)
        ((rest.drop (Header.ofBytes b0 b1).nameLen.toNat).take (Header.ofBytes b0 b1).textLen.toNat) w) hl
        (by simp only [afterAccept, Header.packetSize]; omega) (by simp [afterAccept])
        (by simp only [afterAccept, Header.packetSize]; omega) (by simp only [afterAccept, Header.packetSize]; omega)
      simp only [Except.bind]
      rw [show (afterAccept (Header.ofBytes b0 b1) (rest.take (Header.ofBytes b0 b1).nameLen.toNat)
        ((rest.drop (Header.ofBytes b0 b1).nameLen.toNat).take (Header.ofBytes b0 b1).textLen.toNat) w).dec.cur =
          w.dec.cur + (Header.ofBytes b0 b1).packetSize from rfl, hdrop] at this
      cases hsp : splitPackets m (rest.drop ((Header.ofBytes b0 b1).nameLen.toNat + (Header.ofBytes b0 b1).textLen.toNat)) with
      | error e => rw [hsp] at this; simpa [loopResult] using this
      | ok ps =>
        rw [hsp] at this
        obtain ⟨w', e1, e2, e3⟩ := this
        refine ⟨w', e1, ?_, ?_⟩
        · rw [e2]; cases hh : w.dec.haveName <;> simp [afterAccept, messageOf, hh]
        · rw [e3]; simp [afterAccept, messageOf]

end Sys2Proof.Machine
end

