-- ==== Sys2Proof/Laws/Encoder.lean ====
section
/-! SUPPORT. What one iteration of ENCODE's loop builds, and what the loop builds. -/

namespace Sys2Proof.Machine

/-- The operand checks pass exactly for a valid message (R77). -/
theorem checkMessage_none_iff (name text : Bytes) :
    checkMessage name text = none ↔ 1 ≤ name.length ∧ name.length ≤ 15 ∧ 1 ≤ text.length := by
  unfold checkMessage
  by_cases h1 : name.length = 0
  · simp [h1]
  by_cases h2 : 15 < name.length
  · simp only [h1, h2, if_true, if_false]; simp; omega
  by_cases h3 : text.length = 0
  · simp only [h1, h2, h3, if_true, if_false]; simp
  · simp only [h1, h2, h3, if_false]; simp; omega

/-- A packet's size (R51). -/
theorem packet_length (name chunk : Bytes) : (packet name chunk).length = 2 + name.length + chunk.length := by
  simp [packet]; omega

/-- Byte1 of a header with its crc4 field set is byte1 of the header with that crc4 (R71). -/
theorem setCrcNibble_header (h : Header) (c : BitVec 4) :
    setCrcNibble (headerByte1 h.pack) c = headerByte1 ({ h with crc4 := c } : Header).pack := by
  rcases h with ⟨f, n, t, k⟩
  simp only [setCrcNibble, headerByte1, Header.pack]
  ext i hi
  have hi' : i = 0 ∨ i = 1 ∨ i = 2 ∨ i = 3 ∨ i = 4 ∨ i = 5 ∨ i = 6 ∨ i = 7 := by omega
  simp only [BitVec.getElem_or, BitVec.getElem_and, BitVec.getElem_extractLsb', BitVec.getLsbD_append, BitVec.getElem_setWidth]
  rcases hi' with h | h | h | h | h | h | h | h <;> subst h <;> simp

/-- Byte0 of a header does not depend on its crc4 field (R48). -/
theorem headerByte0_crc4 (h : Header) (c : BitVec 4) :
    headerByte0 ({ h with crc4 := c } : Header).pack = headerByte0 h.pack := by
  rcases h with ⟨f, n, t, k⟩
  simp only [headerByte0, Header.pack]
  ext i hi
  simp only [BitVec.getElem_extractLsb', BitVec.getLsbD_append]
  (repeat' split) <;> first | omega | rfl

/-- The crc4 nibble written into a packet gives the packet with that header (R71). -/
theorem insertCrc_header (h : Header) (rest : Bytes) (c : BitVec 4) :
    insertCrc (h.bytes ++ rest) 0 c = .ok (({ h with crc4 := c } : Header).bytes ++ rest) := by
  simp only [Header.bytes, List.cons_append, List.nil_append, insertCrc_cons, setCrcNibble_header, headerByte0_crc4]

/-- The working state after the packet of the chunk `chunk`. -/
def afterPacket (name chunk : Bytes) (w : Working) : Working :=
  { w with
    crc := (packetHeader name chunk).crc4
    hdr := packetHeader name chunk
    enc := { w.enc with
      crc := (packetHeader name chunk).crc4, scratch := packet name chunk, out := w.enc.out ++ packet name chunk
      idx := w.enc.idx + 1 } }

/-- One iteration builds the packet of chunk `i` and appends it. -/
theorem encodePacket_ok (name text : Bytes) (w : Working) (hl : w.enc.len = text.length)
    (hi : w.enc.idx < chunkCount text.length) :
    encodePacket name text w =
      .ok (afterPacket name (slice text (chunkOff w.enc.idx, chunkLen text.length w.enc.idx)) w) := by
  obtain ⟨-, -, hb⟩ := chunk_bounds hi
  have hc : (slice text (chunkOff w.enc.idx, chunkLen text.length w.enc.idx)).length =
      chunkLen text.length w.enc.idx := by simp [slice]; omega
  have hr := memRead_ok text _ _ hb
  rw [← slice.eq_1 text (chunkOff w.enc.idx, chunkLen text.length w.enc.idx)] at hr
  simp only [encodePacket, hl, hr, bind, Except.bind, Working.computeCrc, List.append_assoc, insertCrc_header, afterPacket,
    packet, packetHeader, hc]

/-- The loop appends the packets of the next `n` chunks, in order (R79). -/
theorem encodeLoop_ok (name text : Bytes) (n : Nat) (w : Working) (hl : w.enc.len = text.length)
    (hi : w.enc.idx + n ≤ chunkCount text.length) :
    ∃ w', encodeLoop name text n w = .ok w' ∧
      w'.enc.out = w.enc.out ++ (List.range' w.enc.idx n).flatMap fun i =>
        packet name (slice text (chunkOff i, chunkLen text.length i)) := by
  induction n generalizing w with
  | zero => exact ⟨w, rfl, by simp⟩
  | succ n ih =>
    have h1 := encodePacket_ok name text w hl (by omega)
    obtain ⟨w2, h2, ho2⟩ := ih (afterPacket name (slice text (chunkOff w.enc.idx, chunkLen text.length w.enc.idx)) w) hl
      (by simp only [afterPacket]; omega)
    refine ⟨w2, by simp [encodeLoop, h1, Except.bind, h2], ?_⟩
    rw [ho2, List.range'_succ, List.flatMap_cons, ← List.append_assoc]
    rfl

end Sys2Proof.Machine
end

