-- ==== Sys2Proof/Laws/PerInstr.lean ====
section
/-! SUPPORT. Statements made per instruction: the decoder gives back a well-formed instruction from its encoding. -/

namespace Sys2Proof.Laws.RoundTrip

/-- Decoding the encoding of a well-formed instruction gives the instruction. -/
def Statement (i : Instr) : Prop := i.wellFormed = true → decode (encode i) = .ok i

theorem crc4 (data : Bytes) : Statement (.crc4 data) := by
  intro _; simp [decode, encode, decodeCrc4, bind, Except.bind]

theorem hdrPack (flag : BitVec 3) (nameLen : BitVec 4) (textLen : BitVec 5) (crc : BitVec 4) :
    Statement (.hdrPack flag nameLen textLen crc) := by
  intro _; simp [decode, encode, decodeHdrPack, bind, Except.bind]

theorem hdrUnpack (hdr : BitVec 16) : Statement (.hdrUnpack hdr) := by
  intro _; simp [decode, encode, decodeHdrUnpack]

theorem chunk (text : Bytes) : Statement (.chunk text) := by
  intro _; simp [decode, encode, decodeChunk, bind, Except.bind]

theorem encode (name text : Bytes) : Statement (.encode name text) := by
  intro h
  have h' : name.length ≤ 255 := by simpa [Instr.wellFormed] using h
  simp [decode, Sys2Proof.encode, decodeEncode, bind, Except.bind, h']

theorem decode (buf : Bytes) : Statement (.decode buf) := by
  intro _; simp [Sys2Proof.decode, Sys2Proof.encode, decodeDecode, bind, Except.bind]

end Sys2Proof.Laws.RoundTrip
end

