-- ==== Sys2Proof/Tests/Slice0.lean ====
section
/-! SUPPORT. Tests: the well-formedness check, each constructor's encoding as the spec writes it, at most two vectors of
spec/95_test_vectors.md per operation, and a witness for the hypotheses of each statement.  Expected values are the spec's. -/

namespace Sys2Proof.Tests

open Sys2Proof Sys2Proof.Machine Sys2Proof.Safety

/-! ## WellFormed -/

/-- An ill-formed term: a name operand of 256 bytes (R19). -/
theorem test_wellFormed_refuses_long_name : (Instr.encode (List.replicate 256 0x41#8) []).wellFormed = false := by
  decide +kernel

theorem test_wellFormed_accepts_255_bytes : (Instr.encode (List.replicate 255 0x41#8) []).wellFormed = true := by
  decide +kernel

/-! ## Decode: the encodings of P1 to P4 (R61) and what is rejected -/

theorem test_decode_crc4 : decode ⟨0x00#8, [.sequence 3 [0xB0#8, 0x20#8, 0x45#8]]⟩ = .ok (.crc4 [0xB0#8, 0x20#8, 0x45#8]) := by
  decide

/-- P3: `01 | f_flag 0b101 | f_name_len 8 | f_text_len 2 | f_crc4 0xA` -/
theorem test_decode_hdrPack :
    decode ⟨0x01#8, [.number 0b101, .number 8, .number 2, .number 0xA]⟩ = .ok (.hdrPack 0b101#3 8#4 2#5 0xA#4) := by decide

/-- P3: `02 | hdr: B0 2A` -/
theorem test_decode_hdrUnpack : decode ⟨0x02#8, [.bytePair 0xB0#8 0x2A#8]⟩ = .ok (.hdrUnpack 0xB02A#16) := by decide

theorem test_decode_chunk : decode ⟨0x03#8, [.sequence 2 [0x48#8, 0x69#8]]⟩ = .ok (.chunk [0x48#8, 0x69#8]) := by decide

/-- P4: `04 | name (8): 45 6C 79 6F 72 62 65 6B | text (2): 48 69` -/
theorem test_decode_encode :
    decode ⟨0x04#8, [.sequence 8 [0x45#8, 0x6C#8, 0x79#8, 0x6F#8, 0x72#8, 0x62#8, 0x65#8, 0x6B#8], .sequence 2 [0x48#8, 0x69#8]]⟩ =
      .ok (.encode [0x45#8, 0x6C#8, 0x79#8, 0x6F#8, 0x72#8, 0x62#8, 0x65#8, 0x6B#8] [0x48#8, 0x69#8]) := by decide

theorem test_decode_decode : decode ⟨0x05#8, [.sequence 2 [0xA0#8, 0x06#8]]⟩ = .ok (.decode [0xA0#8, 0x06#8]) := by decide

/-- V-OP3: all eight bits of cmd are compared. -/
theorem test_decode_reserved : decode ⟨0x84#8, []⟩ = .error (.reservedCmd 0x84#8) := by decide

theorem test_decode_wrong_operands : decode ⟨0x00#8, []⟩ = .error (.wrongOperands 0x00#8) := by decide

theorem test_decode_wide_field :
    decode ⟨0x01#8, [.number 5, .number 16, .number 2, .number 0]⟩ = .error (.fieldTooWide .fNameLen) := by decide

theorem test_decode_length_mismatch : decode ⟨0x05#8, [.sequence 3 [0xA0#8, 0x06#8]]⟩ = .error (.lengthMismatch .buf) := by
  decide

theorem test_decode_long_name :
    decode ⟨0x04#8, [.sequence 256 (List.replicate 256 0x41#8), .sequence 0 []]⟩ = .error .nameBeyondTransport := by
  decide +kernel

theorem test_encode_hdrUnpack : encode (.hdrUnpack 0xB02A#16) = ⟨0x02#8, [.bytePair 0xB0#8 0x2A#8]⟩ := by decide

/-! ## Operations: vectors of 95_test_vectors.md -/

/-- V-CRC12 -/
theorem test_crc4_hi : responseOf (exec (.crc4 [0x48#8, 0x69#8]) State.reset) =
    some { Response.ok with crc := some 0x07#8 } := by decide +kernel

/-- V-CRC16, the check value -/
theorem test_crc4_check : responseOf (exec
    (.crc4 [0x31#8, 0x32#8, 0x33#8, 0x34#8, 0x35#8, 0x36#8, 0x37#8, 0x38#8, 0x39#8]) State.reset) =
    some { Response.ok with crc := some 0x07#8 } := by decide +kernel

/-- V-HP6: text_len bit 4 lands in byte0 bit 0 -/
theorem test_hdrPack_text_len_16 : responseOf (exec (.hdrPack 0b101#3 1#4 16#5 0x0#4) State.reset) =
    some { Response.ok with hdrOut := some 0xA300#16 } := by decide

/-- V-HP2 -/
theorem test_hdrPack_literal : responseOf (exec (.hdrPack 0b101#3 8#4 2#5 0xA#4) State.reset) =
    some { Response.ok with hdrOut := some 0xB02A#16 } := by decide

/-- V-HU7: text_len across the byte boundary -/
theorem test_hdrUnpack_text_len_31 : responseOf (exec (.hdrUnpack 0xA3F7#16) State.reset) =
    some { Response.ok with
      uFlag := some 0b101#3, uNameLen := some 1#4, uTextLen := some 31#5, uCrc4 := some 0x7#4 } := by decide

/-- V-HU6: no validation of the flag -/
theorem test_hdrUnpack_bad_flag : responseOf (exec (.hdrUnpack 0x1234#16) State.reset) =
    some { Response.ok with
      uFlag := some 0b000#3, uNameLen := some 9#4, uTextLen := some 3#5, uCrc4 := some 0x4#4 } := by decide

/-- V-CH5 -/
theorem test_chunk_32 : responseOf (exec (.chunk (List.replicate 32 0x61#8)) State.reset) =
    some { Response.ok with nChunks := some 2, chunks := some [(0, 31), (31, 1)] } := by decide +kernel

/-- V-CH7: no trailing empty chunk -/
theorem test_chunk_62 : responseOf (exec (.chunk (List.replicate 62 0x61#8)) State.reset) =
    some { Response.ok with nChunks := some 2, chunks := some [(0, 31), (31, 31)] } := by decide +kernel

/-- V-EN4 -/
theorem test_encode_short : responseOf (exec (.encode [0x4E#8] [0x61#8]) State.reset) =
    some { Response.ok with out := some [0xA2#8, 0x1B#8, 0x4E#8, 0x61#8] } := by decide +kernel

/-- V-EN1, the source's literal vector S1 -/
theorem test_encode_literal : responseOf (exec
    (.encode [0x45#8, 0x6C#8, 0x79#8, 0x6F#8, 0x72#8, 0x62#8, 0x65#8, 0x6B#8] [0x48#8, 0x69#8]) State.reset) =
    some { Response.ok with
      out := some [0xB0#8, 0x2A#8, 0x45#8, 0x6C#8, 0x79#8, 0x6F#8, 0x72#8, 0x62#8, 0x65#8, 0x6B#8, 0x48#8, 0x69#8] } := by
  decide +kernel

/-- V-DE16: names that differ, each packet's own name_len locating its text -/
theorem test_decode_two_names : responseOf (exec (.decode
    [0xA6#8, 0x2C#8, 0x42#8, 0x6F#8, 0x62#8, 0x48#8, 0x69#8,
     0xAA#8, 0x25#8, 0x41#8, 0x6C#8, 0x69#8, 0x63#8, 0x65#8, 0x79#8, 0x6F#8]) State.reset) =
    some { Response.ok with
      dName := some [0x42#8, 0x6F#8, 0x62#8], dText := some [0x48#8, 0x69#8, 0x79#8, 0x6F#8] } := by decide +kernel

/-- V-DE19: bad flag and overrun, the flag is reported -/
theorem test_decode_flag_before_overrun : responseOf (exec (.decode [0x1F#8, 0xF0#8]) State.reset) =
    some (Response.error .invalidFlag) := by decide +kernel

/-- A lone trailing byte after the last packet (V-DE4's kind) ends the loop by InvalidBuffer, not by its bound. -/
theorem test_decode_trailing_byte : responseOf (exec (.decode [0xA0#8, 0x06#8, 0xA0#8]) State.reset) =
    some (Response.error .invalidBuffer) := by decide +kernel

/-- V-OP1 -/
theorem test_step_illegalOp : responseOf (step { State.reset with inbox := [.request ⟨0x06#8, []⟩] }) =
    some (Response.error .illegalOp) := by decide

/-- V-OP4, at a capacity of two text bytes -/
theorem test_encode_refused : refusalOf (exec (.encode [0x4E#8] [0x61#8, 0x61#8, 0x61#8])
    (State.afterReset { maxTextLen := 2, maxBufLen := 64 })) = some .textBeyondCapacity := by decide

/-- A word of the opcode table, placed at reset, runs: HDR_UNPACK of 0x0000 (V-HU2). -/
theorem test_placed_word : responseOf (step (State.reset.withFetchWord 8 2)) =
    some { Response.ok with
      uFlag := some 0b000#3, uNameLen := some 0#4, uTextLen := some 0#5, uCrc4 := some 0x0#4 } := by decide

/-- P4's last line, `X = .req 0x06`. -/
theorem test_program_line :
    Line.transcribe [] ⟨some "X", .req 0x06#8, []⟩ = .ok ⟨0x06#8, []⟩ := by decide

/-! ## Witnesses: the hypotheses of each statement can be met together -/

/-- A machine of small capacities, for boundary values. -/
def small : State := State.afterReset { maxTextLen := 64, maxBufLen := 70 }

def asks (a : HostAction) : State := { State.reset with inbox := [a] }

theorem witness_StepRunsDecodedInstruction :
    (asks (.request (encode (.chunk [])))).inbox = .request (encode (.chunk [])) :: [] ∧
      decode (encode (.chunk [])) = .ok (.chunk []) := by decide

theorem witness_PlacedTableWordRuns : decodeTableWord 8 5 = some (.decode []) := by decide

theorem witness_ReservedCmdIsIllegalOp :
    (asks (.request ⟨0x06#8, []⟩)).inbox = .request ⟨0x06#8, []⟩ :: [] ∧ 6 ≤ (0x06#8 : Byte).toNat := by decide

theorem witness_MalformedRequestIsRefused :
    (asks (.request ⟨0x05#8, []⟩)).inbox = .request ⟨0x05#8, []⟩ :: [] ∧ (0x05#8 : Byte).toNat ≤ 5 ∧
      decode ⟨0x05#8, []⟩ = .error (.wrongOperands 0x05#8) := by decide

theorem witness_IdleBlockWaits : State.reset.inbox = [] := rfl

theorem witness_HostReadFaultsWhenUnspecified_none :
    (asks (.read .out)).inbox = .read .out :: [] ∧ (asks (.read .out)).response.field .out = none := by decide

theorem witness_HostReadFaultsWhenUnspecified_some :
    ({ asks (.read .crc) with response := { Response.ok with crc := some 0x0F#8 } } : State).inbox = .read .crc :: [] ∧
      ({ asks (.read .crc) with response := { Response.ok with crc := some 0x0F#8 } } : State).response.field .crc =
        some (.word 8 15) := by decide

theorem witness_RequestStepLeavesRequestAsIssued :
    (nextOf (step (asks (.request (encode (.chunk [])))))).isSome = true := by decide

theorem witness_InitialValues : ∃ s : State, Working.initial = s.start.working := ⟨State.reset, rfl⟩

theorem witness_ResetForgetsEverything_reset : (asks .reset).inbox = .reset :: [] := rfl

theorem witness_ResetForgetsEverything_inProgress :
    (asks (.requestThenReset (encode (.chunk [])))).inbox = .requestThenReset (encode (.chunk [])) :: [] ∧
      (nextOf (step { asks (.requestThenReset (encode (.chunk []))) with
        inbox := .request (encode (.chunk [])) :: [] })).isSome = true := by decide

theorem witness_ResetForgetsEverything_malformed :
    (asks (.requestThenReset ⟨0x05#8, []⟩)).inbox = .requestThenReset ⟨0x05#8, []⟩ :: [] ∧
      refusalOf (step { asks (.requestThenReset ⟨0x05#8, []⟩) with inbox := .request ⟨0x05#8, []⟩ :: [] }) =
        some (.malformedRequest (.wrongOperands 0x05#8)) := by decide

theorem witness_ResetForgetsEverything_beyondCapacity :
    refusalOf (step { small with inbox := .request (encode (.decode (List.replicate 71 0x00#8))) :: [] }) =
      some .bufBeyondCapacity := by decide +kernel

theorem witness_StepKeepsInvariant : Inv State.reset ∧ ∃ t, step State.reset = .next t :=
  ⟨⟨rfl, by constructor <;> simp [State.reset, State.afterReset, Response.unspecified]⟩, _, rfl⟩

theorem witness_CapacityNeverChanges : ∃ t, step (asks .reset) = .next t := ⟨_, rfl⟩

theorem witness_AdmittedOperationsComplete :
    beyondCapacity small.capacity (.crc4 (List.replicate 70 0x00#8)) = false ∧
      beyondCapacity small.capacity (.chunk (List.replicate 64 0x00#8)) = false ∧
      beyondCapacity small.capacity (.encode [0x41#8] (List.replicate 64 0x00#8)) = true ∧
      beyondCapacity small.capacity (.encode [0x41#8] (List.replicate 62 0x00#8)) = false ∧
      beyondCapacity small.capacity (.decode (List.replicate 70 0x00#8)) = false := by decide +kernel

theorem witness_ResponseDependsOnRequestOnly : State.reset.capacity = (asks .reset).capacity := rfl

theorem witness_OperationFrame : ∃ t, exec (.hdrUnpack 0x1234#16) State.reset = .next t := ⟨_, rfl⟩

theorem witness_ResponseFieldsPerOperation_ok :
    ∃ t, exec (.hdrUnpack 0x1234#16) State.reset = .next t ∧ t.response.status = some 0x00#8 := ⟨_, rfl, rfl⟩

theorem witness_ResponseFieldsPerOperation_error :
    ∃ t, exec (.encode [] []) State.reset = .next t ∧ t.response.status ≠ some 0x00#8 := ⟨_, rfl, by decide⟩

theorem witness_ErrorsPerOperation : ∃ t, exec (.encode [] []) State.reset = .next t := ⟨_, rfl⟩

theorem witness_Crc4Operation :
    (List.replicate 70 0x00#8).length ≤ small.capacity.maxBufLen ∧
      small.capacity.maxBufLen < (List.replicate 71 0x00#8).length := by decide +kernel

theorem witness_CrcProperties : ([0x01#8] : Bytes).length = ([0x80#8] : Bytes).length := rfl

theorem witness_HeaderByteLayout : ({ flag := 0b101, nameLen := 15, textLen := 31, crc4 := 0 } : Header).flag = 0b101#3 := rfl

theorem witness_CrcNibbleInsert : ([0xB0#8, 0x20#8] : Bytes)[0 + 1]? = some 0x20#8 := rfl

/-- Operands as the lines of P1 and P3 write them: a quoted string, a header as a number and as two bytes, fields of a result `B`. -/
theorem witness_ProgramLinesTranscribe :
    (∀ c ∈ ['H', 'i'], c.toNat < 128) ∧
    ([("B", { Response.ok with hdrOut := some 0xB02A#16, nChunks := some 2, out := some [0xA0#8, 0x06#8] })] :
        Bindings).lookup "B" =
      some { Response.ok with hdrOut := some 0xB02A#16, nChunks := some 2, out := some [0xA0#8, 0x06#8] } ∧
    ({ Response.ok with hdrOut := some 0xB02A#16 } : Response).field .hdrOut = some (.word 16 0xB02A) ∧
    ({ Response.ok with nChunks := some 2 } : Response).field .nChunks = some (.natural 2) ∧
    ({ Response.ok with out := some [0xA0#8, 0x06#8] } : Response).field .out = some (.bytes [0xA0#8, 0x06#8]) ∧
    evalOperand [] (.ascii ['H', 'i']) = .ok (.inr [0x48#8, 0x69#8]) ∧
    evalOperand [] (.number (0xB02A#16 : BitVec 16).toNat) = .ok (.inl (0xB02A#16 : BitVec 16).toNat) ∧
    evalOperand [] (.hex [0xB0#8, 0x2A#8]) =
      .ok (.inr [(0xB02A#16 : BitVec 16).extractLsb' 8 8, (0xB02A#16 : BitVec 16).extractLsb' 0 8]) :=
  ⟨by simp, rfl, rfl, rfl, rfl, rfl, rfl, rfl⟩

theorem witness_BadProgramOperandsAreRefused :
    2 ^ 4 ≤ 16 ∧ 2 ^ 16 ≤ 65536 ∧ ([("B", Response.error .nameEmpty)] : Bindings).lookup "B" = some (Response.error .nameEmpty) ∧
      (Response.error .nameEmpty).field .out = none := by decide

theorem witness_ChunkOperation :
    (List.replicate 64 0x61#8).length ≤ small.capacity.maxTextLen ∧
      small.capacity.maxTextLen < (List.replicate 65 0x61#8).length := by decide +kernel

theorem witness_ChunksCoverTheText : ∃ t, 1 ≤ ([0x61#8] : Bytes).length ∧ exec (.chunk [0x61#8]) State.reset = .next t ∧
    t.response.chunks = some [(0, 1)] := ⟨_, by decide, rfl, rfl⟩

theorem witness_NoTrailingEmptyChunk :
    (List.replicate 31 0x61#8).length ≤ small.capacity.maxTextLen ∧ (List.replicate 31 0x61#8).length = 31 * 1 ∧
      (List.replicate 32 0x61#8).length ≤ small.capacity.maxTextLen ∧ (List.replicate 32 0x61#8).length = 31 * 1 + 1 := by
  decide +kernel

theorem witness_EncodeChecksInOrder :
    ([] : Bytes).length ≤ small.capacity.maxTextLen ∧ ([] : Bytes).length = 0 ∧
      15 < (List.replicate 16 0x41#8).length ∧ 1 ≤ (List.replicate 15 0x41#8).length ∧
      (List.replicate 15 0x41#8).length ≤ 15 := by decide +kernel

theorem witness_EncodeOperation_beyond_text : small.capacity.maxTextLen < (List.replicate 65 0x61#8).length := by decide +kernel

theorem witness_EncodeOperation_beyond_output :
    (List.replicate 64 0x61#8).length ≤ small.capacity.maxTextLen ∧ 1 ≤ ([0x41#8] : Bytes).length ∧
      small.capacity.maxBufLen <
        ((List.replicate 64 0x61#8).length + 30) / 31 * (2 + ([0x41#8] : Bytes).length) + (List.replicate 64 0x61#8).length := by
  decide +kernel

theorem witness_EncodeOperation_and_RoundTrip :
    (List.replicate 62 0x61#8).length ≤ small.capacity.maxTextLen ∧ 1 ≤ ([0x41#8] : Bytes).length ∧
      ([0x41#8] : Bytes).length ≤ 15 ∧ 1 ≤ (List.replicate 62 0x61#8).length ∧
      ((List.replicate 62 0x61#8).length + 30) / 31 * (2 + ([0x41#8] : Bytes).length) + (List.replicate 62 0x61#8).length ≤
        small.capacity.maxBufLen := by decide +kernel

theorem witness_EncodedBufferLayout : ∃ t out, exec (.encode [0x41#8] [0x61#8]) State.reset = .next t ∧
    t.response.out = some out ∧ 0 < (([0x61#8] : Bytes).length + 30) / 31 := ⟨_, _, rfl, rfl, by decide⟩

theorem witness_DecodeOfShortBuffer :
    ([0xB0#8] : Bytes).length < 2 ∧ ([0xB0#8] : Bytes).length ≤ small.capacity.maxBufLen := by decide

theorem witness_DecodeBeyondCapacityRefused : small.capacity.maxBufLen < (List.replicate 71 0x00#8).length := by decide +kernel

/-- V-DE13: x"A0 06" is a run of one valid packet, with an empty name and an empty text. -/
theorem witness_DecodesTo : DecodesTo State.reset [0xA0#8, 0x06#8] [] [] :=
  ⟨{ State.reset with response := { Response.ok with dName := some [], dText := some [] } }, rfl, rfl, rfl, rfl⟩

theorem witness_LoneTrailingByteIsInvalidBuffer :
    ValidRun State.reset [0xA0#8, 0x06#8] ∧ ([0xA0#8, 0x06#8] : Bytes).length + 1 ≤ State.reset.capacity.maxBufLen :=
  ⟨.inr ⟨_, _, witness_DecodesTo⟩, by decide⟩

/-- The three checks, each at a packet behind a valid one: a bad flag (V-DE17's kind), one byte too few, a bad CRC (V-DE20). -/
theorem witness_PacketChecksInOrder :
    ValidRun State.reset [0xA0#8, 0x06#8] ∧
      ([0xA0#8, 0x06#8] ++ 0xA0#8 :: 0x10#8 :: []).length ≤ State.reset.capacity.maxBufLen ∧
      (Header.ofBytes 0x06#8 0x2A#8).flag ≠ 0b101#3 ∧
      ((Header.ofBytes 0xA0#8 0x10#8).flag = 0b101#3 ∧
        (0xA0#8 :: 0x10#8 :: ([] : Bytes)).length < (Header.ofBytes 0xA0#8 0x10#8).packetSize) ∧
      ((Header.ofBytes 0xA0#8 0x01#8).flag = 0b101#3 ∧
        (Header.ofBytes 0xA0#8 0x01#8).packetSize ≤ (0xA0#8 :: 0x01#8 :: ([] : Bytes)).length ∧
        crc4 ([0xA0#8, 0x01#8 &&& 0xF0#8] ++ ([] : Bytes).take ((Header.ofBytes 0xA0#8 0x01#8).packetSize - 2)) ≠
          (Header.ofBytes 0xA0#8 0x01#8).crc4) :=
  ⟨.inr ⟨_, _, witness_DecodesTo⟩, by decide +kernel⟩

/-- V-DE15: x"A0 1F 51", an empty name and the text "Q", alone and behind a valid packet. -/
theorem witness_ValidPacketIsAppended :
    (Header.ofBytes 0xA0#8 0x1F#8).flag = 0b101#3 ∧ (Header.ofBytes 0xA0#8 0x1F#8).nameLen.toNat = ([] : Bytes).length ∧
      (Header.ofBytes 0xA0#8 0x1F#8).textLen.toNat = ([0x51#8] : Bytes).length ∧
      crc4 ([0xA0#8, 0x1F#8 &&& 0xF0#8] ++ [] ++ [0x51#8]) = (Header.ofBytes 0xA0#8 0x1F#8).crc4 ∧
      2 + ([] : Bytes).length + ([0x51#8] : Bytes).length ≤ State.reset.capacity.maxBufLen ∧
      DecodesTo State.reset [0xA0#8, 0x06#8] [] [] ∧
      ([0xA0#8, 0x06#8] : Bytes).length + 2 + ([] : Bytes).length + ([0x51#8] : Bytes).length ≤ State.reset.capacity.maxBufLen :=
  ⟨by decide +kernel, by decide +kernel, by decide +kernel, by decide +kernel, by decide, witness_DecodesTo, by decide⟩

theorem witness_ConcatenatedBuffersDecode :
    DecodesTo State.reset [0xA0#8, 0x06#8] [] [] ∧
      ([0xA0#8, 0x06#8] : Bytes).length + ([0xA0#8, 0x06#8] : Bytes).length ≤ State.reset.capacity.maxBufLen :=
  ⟨witness_DecodesTo, by decide⟩

/-- Each change of R97 to the header of x"A0 06": another flag, another nibble, the nibble zeroed (its crc4 is 6). -/
theorem witness_HeaderCorruptionIsDetected :
    ValidRun State.reset [] ∧ ValidRun State.reset ([] ++ 0xA0#8 :: 0x06#8 :: []) ∧
      (Header.ofBytes 0x80#8 0x06#8).flag ≠ 0b101#3 ∧ ((0x05#8 : Byte) ≠ 0x06#8 ∧ (0x05#8 : Byte) &&& 0xF0#8 = 0x06#8 &&& 0xF0#8) ∧
      (Header.ofBytes 0xA0#8 0x06#8).crc4 ≠ 0x0#4 :=
  ⟨.inl rfl, .inr ⟨_, _, witness_DecodesTo⟩, by decide, by decide, by decide⟩

/-- R97 c, where the nibble is already zero: V-DE12's buffer x"A2 10 41 61". -/
theorem witness_HeaderCorruptionIsDetected_zero :
    ValidRun State.reset ([] ++ 0xA2#8 :: 0x10#8 :: [0x41#8, 0x61#8]) ∧ (Header.ofBytes 0xA2#8 0x10#8).crc4 = 0x0#4 :=
  ⟨.inr ⟨[0x41#8], [0x61#8], _, rfl, rfl, rfl, rfl⟩, by decide⟩

end Sys2Proof.Tests
end

