-- ==== Sys2Proof/Proofs/Scope.lean ====
section
/-! PROOFS. How an operation ends, and from it that no operation faults (spec/00_scope.md R13, R96) and that the capacities are
fixed (R9). -/

namespace Sys2Proof.Machine

/-- The two ways a request that the block has taken up can end: a response is delivered, or the request is refused. -/
inductive Answered (s : State) : StepOutcome → Prop
  | delivered (r : Response) : Answered s (.next (s.deliver r))
  | refused (ρ : Refusal) : Answered s (.refused ρ)

theorem Answered.ne_fault {s : State} {o : StepOutcome} (h : Answered s o) (f : Fault) : o ≠ .fault f := by
  cases h <;> nofun

theorem Answered.next_eq {s t : State} {o : StepOutcome} (h : Answered s o) (ho : o = .next t) : ∃ r, t = s.deliver r := by
  cases h with
  | delivered r => cases ho; exact ⟨r, rfl⟩
  | refused ρ => cases ho

/-! ## Every operation is answered -/

theorem State.finish_answered (s : State) {result : Except Abort Working} (f : Working → Response)
    (h : ∀ x, result ≠ .error (.fault x)) : Answered s (s.finish result f) := by
  match result, h with
  | .ok w, _ => exact .delivered (f w)
  | .error (.error e), _ => exact .delivered (Response.error e)
  | .error (.fault x), h => exact absurd rfl (h x)

/-- The chunk count of R73 keeps every MemRead of ENCODE inside the text, so the loop ends without a fault. -/
theorem encodeLoop_ne_fault (name text : Bytes) (x : Fault) :
    encodeLoop name text (chunkCount text.length) (encodeSetup text Working.initial) ≠ .error (.fault x) := by
  have hidx : (encodeSetup text Working.initial).enc.idx = 0 := rfl
  obtain ⟨w, hw, -⟩ := encodeLoop_ok name text (chunkCount text.length) (encodeSetup text Working.initial) rfl (by omega)
  rw [hw]
  nofun

/-- R96: N div 2 + 1 iterations are enough for DECODE's loop, which ends with a result or an error of R98. -/
theorem decodeLoop_ne_fault (buf : Bytes) (x : Fault) :
    decodeLoop buf (buf.length / 2 + 1) (decodeSetup buf Working.initial) ≠ .error (.fault x) := by
  have hcur : (decodeSetup buf Working.initial).dec.cur = 0 := rfl
  have h := decodeLoop_eq buf (buf.length / 2 + 1) (buf.length / 2) (decodeSetup buf Working.initial) rfl (by omega)
    (fun _ => rfl) (.inl (by omega)) (by omega)
  split at h
  · obtain ⟨w, hw, -, -⟩ := h
    rw [hw]
    nofun
  · rw [h]
    nofun

theorem execCrc4_answered (data : Bytes) (s : State) : Answered s (execCrc4 data s) := by
  unfold execCrc4
  split
  · exact .refused _
  · exact s.finish_answered _ nofun

theorem execHdrPack_answered (flag : BitVec 3) (nameLen : BitVec 4) (textLen : BitVec 5) (crc : BitVec 4) (s : State) :
    Answered s (execHdrPack flag nameLen textLen crc s) :=
  s.finish_answered _ nofun

theorem execHdrUnpack_answered (hdr : BitVec 16) (s : State) : Answered s (execHdrUnpack hdr s) :=
  s.finish_answered _ nofun

theorem execChunk_answered (text : Bytes) (s : State) : Answered s (execChunk text s) := by
  unfold execChunk
  split
  · exact .refused _
  · exact s.finish_answered _ nofun

theorem execEncode_answered (name text : Bytes) (s : State) : Answered s (execEncode name text s) := by
  unfold execEncode
  split
  · exact .refused _
  split
  · exact .delivered _
  dsimp only
  split
  · exact .refused _
  · exact s.finish_answered _ (encodeLoop_ne_fault name text)

theorem execDecode_answered (buf : Bytes) (s : State) : Answered s (execDecode buf s) := by
  unfold execDecode
  split
  · exact .refused _
  refine s.finish_answered _ fun x => ?_
  split
  · nofun
  · exact decodeLoop_ne_fault buf x

theorem exec_answered (i : Instr) (s : State) : Answered s (exec i s) := by
  cases i with
  | crc4 data => exact execCrc4_answered data s
  | hdrPack flag nameLen textLen crc => exact execHdrPack_answered flag nameLen textLen crc s
  | hdrUnpack hdr => exact execHdrUnpack_answered hdr s
  | chunk text => exact execChunk_answered text s
  | encode name text => exact execEncode_answered name text s
  | decode buf => exact execDecode_answered buf s

/-- Settles O18: every operation is answered, and an answer is no fault. -/
theorem operationsNeverFault : Obligations.OperationsNeverFault := by
  unfold Obligations.OperationsNeverFault
  intro i s f
  exact (exec_answered i s).ne_fault f

/-! ## The host's actions keep the capacities -/

theorem runRequest_answered (r : EncodedRequest) (s : State) : Answered (s.accept r) (runRequest r s) := by
  unfold runRequest
  split
  · exact exec_answered _ _
  · exact .delivered _
  · exact .refused _

/-- The next state of a request that reset cuts off is the reset block (R112 b). -/
theorem runThenReset_next {r : EncodedRequest} {s t : State} (h : runThenReset r s = .next t) : t = s.applyReset := by
  unfold runThenReset at h
  split at h <;> cases h
  rfl

/-- A read of the response changes only what the host holds (R103). -/
theorem readResponse_next {f : ResponseField} {s t : State} (h : readResponse f s = .next t) :
    ∃ v, t = { s with hostRead := some v } := by
  unfold readResponse at h
  split at h <;> cases h
  exact ⟨_, rfl⟩

theorem perform_capacity {a : HostAction} {s t : State} (h : perform a s = .next t) : t.capacity = s.capacity := by
  cases a with
  | request r =>
    obtain ⟨resp, rfl⟩ := (runRequest_answered r s).next_eq h
    simp
  | requestThenReset r => simp [runThenReset_next h]
  | reset => cases h; simp
  | read f =>
    obtain ⟨v, rfl⟩ := readResponse_next h
    rfl

/-- Settles O15: an idle step changes nothing, and each action of the host keeps the capacities. -/
theorem capacityNeverChanges : Obligations.CapacityNeverChanges := by
  unfold Obligations.CapacityNeverChanges
  intro s t h
  unfold step hostStep at h
  split at h
  · cases h; rfl
  · simpa using perform_capacity h

end Sys2Proof.Machine
end

/-! PROOFS. The requests' encoding (spec/30_encoding.md R56, R61), and the state of spec/10_state.md: what an operation answers as
one function of its request (R16), what it leaves (R28), the fields its response specifies (R20), and the invariant of the steps. -/

namespace Sys2Proof

/-! ## The decoder answers only well-formed encodings -/

theorem bind_eq_ok_iff {ε α β : Type} {x : Except ε α} {f : α → Except ε β} {b : β} :
    (x >>= f) = .ok b ↔ ∃ a, x = .ok a ∧ f a = .ok b := by
  cases x <;> simp [bind, Except.bind]

theorem decodeCrc4_ok {ops : List OperandValue} {i : Instr} (h : decodeCrc4 ops = .ok i) :
    i.wellFormed = true ∧ encode i = ⟨0x00#8, ops⟩ := by
  unfold decodeCrc4 at h
  split at h
  · obtain ⟨data, hdata, hi⟩ := bind_eq_ok_iff.1 h
    obtain ⟨rfl, rfl⟩ := (sequenceOf_ok_iff _ _ _ _).1 hdata
    cases hi
    exact ⟨rfl, rfl⟩
  · cases h

theorem decodeHdrPack_ok {ops : List OperandValue} {i : Instr} (h : decodeHdrPack ops = .ok i) :
    i.wellFormed = true ∧ encode i = ⟨0x01#8, ops⟩ := by
  unfold decodeHdrPack at h
  split at h
  · obtain ⟨flag, hflag, h⟩ := bind_eq_ok_iff.1 h
    obtain ⟨nameLen, hnameLen, h⟩ := bind_eq_ok_iff.1 h
    obtain ⟨textLen, htextLen, h⟩ := bind_eq_ok_iff.1 h
    obtain ⟨crc, hcrc, hi⟩ := bind_eq_ok_iff.1 h
    rw [fieldOf_ok_iff] at hflag hnameLen htextLen hcrc
    subst hflag hnameLen htextLen hcrc
    cases hi
    exact ⟨rfl, rfl⟩
  · cases h

/-- The two bytes of `hdr` stand in the header at the bits R69 gives them. -/
theorem hdrOfBytes_bytes (hb0 hb1 : Byte) :
    (hdrOfBytes hb0 hb1).extractLsb' 8 8 = hb0 ∧ (hdrOfBytes hb0 hb1).extractLsb' 0 8 = hb1 := by
  unfold hdrOfBytes
  exact ⟨BitVec.extractLsb'_append_eq_left, BitVec.extractLsb'_append_eq_right⟩

theorem decodeHdrUnpack_ok {ops : List OperandValue} {i : Instr} (h : decodeHdrUnpack ops = .ok i) :
    i.wellFormed = true ∧ encode i = ⟨0x02#8, ops⟩ := by
  unfold decodeHdrUnpack at h
  split at h
  · cases h
    simp [Instr.wellFormed, encode, hdrOfBytes_bytes]
  · cases h

theorem decodeChunk_ok {ops : List OperandValue} {i : Instr} (h : decodeChunk ops = .ok i) :
    i.wellFormed = true ∧ encode i = ⟨0x03#8, ops⟩ := by
  unfold decodeChunk at h
  split at h
  · obtain ⟨text, htext, hi⟩ := bind_eq_ok_iff.1 h
    obtain ⟨rfl, rfl⟩ := (sequenceOf_ok_iff _ _ _ _).1 htext
    cases hi
    exact ⟨rfl, rfl⟩
  · cases h

theorem decodeEncode_ok {ops : List OperandValue} {i : Instr} (h : decodeEncode ops = .ok i) :
    i.wellFormed = true ∧ encode i = ⟨0x04#8, ops⟩ := by
  unfold decodeEncode at h
  split at h
  · obtain ⟨name, hname, h⟩ := bind_eq_ok_iff.1 h
    obtain ⟨text, htext, h⟩ := bind_eq_ok_iff.1 h
    obtain ⟨rfl, rfl⟩ := (sequenceOf_ok_iff _ _ _ _).1 hname
    obtain ⟨rfl, rfl⟩ := (sequenceOf_ok_iff _ _ _ _).1 htext
    split at h
    · rename_i hlen
      cases h
      exact ⟨decide_eq_true hlen, rfl⟩
    · cases h
  · cases h

theorem decodeDecode_ok {ops : List OperandValue} {i : Instr} (h : decodeDecode ops = .ok i) :
    i.wellFormed = true ∧ encode i = ⟨0x05#8, ops⟩ := by
  unfold decodeDecode at h
  split at h
  · obtain ⟨buf, hbuf, hi⟩ := bind_eq_ok_iff.1 h
    obtain ⟨rfl, rfl⟩ := (sequenceOf_ok_iff _ _ _ _).1 hbuf
    cases hi
    exact ⟨rfl, rfl⟩
  · cases h

/-- The cmd alone selects the row of R56, and the row's operands are those of the instruction. -/
theorem encode_of_decode {r : EncodedRequest} {i : Instr} (h : decode r = .ok i) : i.wellFormed = true ∧ encode i = r := by
  obtain ⟨cmd, ops⟩ := r
  have hcmd (n : Nat) (hn : cmd.toNat = n) : cmd = BitVec.ofNat 8 n := by simp [← hn]
  unfold decode at h
  split at h
  case h_1 hn => rw [hcmd 0 hn]; exact decodeCrc4_ok h
  case h_2 hn => rw [hcmd 1 hn]; exact decodeHdrPack_ok h
  case h_3 hn => rw [hcmd 2 hn]; exact decodeHdrUnpack_ok h
  case h_4 hn => rw [hcmd 3 hn]; exact decodeChunk_ok h
  case h_5 hn => rw [hcmd 4 hn]; exact decodeEncode_ok h
  case h_6 hn => rw [hcmd 5 hn]; exact decodeDecode_ok h
  case h_7 => cases h

theorem decode_encode (i : Instr) : Laws.RoundTrip.Statement i := by
  cases i with
  | crc4 data => exact Laws.RoundTrip.crc4 data
  | hdrPack flag nameLen textLen crc => exact Laws.RoundTrip.hdrPack flag nameLen textLen crc
  | hdrUnpack hdr => exact Laws.RoundTrip.hdrUnpack hdr
  | chunk text => exact Laws.RoundTrip.chunk text
  | encode name text => exact Laws.RoundTrip.encode name text
  | decode buf => exact Laws.RoundTrip.decode buf

/-- Settles O1: a request that decodes is the encoding of what it decodes to, and a well-formed encoding decodes. -/
theorem decodeAndEncodeAgree : Obligations.DecodeAndEncodeAgree := by
  unfold Obligations.DecodeAndEncodeAgree
  intro r i
  constructor
  · exact encode_of_decode
  · rintro ⟨hwf, rfl⟩
    exact decode_encode i hwf

end Sys2Proof

namespace Sys2Proof.Machine

/-! ## An operation answers what the transaction level computes -/

/-- The end of an operation whose result is computed as one function of the request. -/
def State.answer (s : State) : Except Refusal Response → StepOutcome
  | .ok r => .next (s.deliver r)
  | .error ρ => .refused ρ

@[simp] theorem State.answer_ok (s : State) (r : Response) : s.answer (.ok r) = .next (s.deliver r) := rfl

@[simp] theorem State.answer_error (s : State) (ρ : Refusal) : s.answer (.error ρ) = .refused ρ := rfl

theorem State.answer_eq_next_iff {s t : State} {x : Except Refusal Response} :
    s.answer x = .next t ↔ ∃ r, x = .ok r ∧ t = s.deliver r := by
  cases x <;> simp [eq_comm]

theorem execCrc4_eq (data : Bytes) (s : State) : execCrc4 data s = s.answer (respond s.capacity (.crc4 data)) := by
  rw [execCrc4, respond]
  split <;> rfl

/-- CHUNK's loop builds the ranges of R73. -/
theorem execChunk_eq (text : Bytes) (s : State) : execChunk text s = s.answer (respond s.capacity (.chunk text)) := by
  rw [execChunk, respond]
  split
  · rfl
  · simp [chunkLoop_eq, Working.initial, chunkRanges, List.range_eq_range']

@[simp] theorem encodeSetup_count (text : Bytes) (w : Working) : (encodeSetup text w).enc.count = chunkCount text.length := rfl
@[simp] theorem encodeSetup_len (text : Bytes) (w : Working) : (encodeSetup text w).enc.len = text.length := rfl

/-- ENCODE's loop appends the packets of the chunks. -/
theorem execEncode_eq (name text : Bytes) (s : State) :
    execEncode name text s = s.answer (respond s.capacity (.encode name text)) := by
  obtain ⟨w, hw, hout⟩ := encodeLoop_ok name text (chunkCount text.length) (encodeSetup text Working.initial) rfl
    (Nat.le_of_eq (Nat.zero_add _))
  have hmsg : w.enc.out = encodeMessage name text := by
    simp [hout, encodeSetup, Working.initial, encodeMessage, chunkRanges, List.range_eq_range', List.flatMap_map]
  rw [execEncode, respond]
  split
  · rfl
  cases hcheck : checkMessage name text with
  | some e => rfl
  | none =>
    simp only [State.start_working, encodeSetup_count, encodeSetup_len, encodedLength, hw, ← hmsg]
    split <;> rfl

/-- DECODE's loop gives the message of the buffer's packets, or the error of the first packet that fails. -/
theorem execDecode_eq (buf : Bytes) (s : State) : execDecode buf s = s.answer (respond s.capacity (.decode buf)) := by
  have hloop := decodeLoop_eq buf (buf.length / 2 + 1) (buf.length / 2) (decodeSetup buf Working.initial) rfl (Nat.zero_le _)
    (fun _ => rfl) (.inl (by omega)) (by omega)
  rw [show (decodeSetup buf Working.initial).dec.cur = 0 from rfl, List.drop_zero] at hloop
  rw [execDecode, respond, decodeMessage, packetsOf]
  split
  · rfl
  split
  · rfl
  simp only [State.start_working]
  cases hp : splitPackets (buf.length / 2) buf with
  | error e =>
    rw [hp] at hloop
    rw [show decodeLoop buf _ _ = raise e from hloop]
    rfl
  | ok ps =>
    rw [hp] at hloop
    obtain ⟨w, hw, hname, hacc⟩ := hloop
    rw [hw, State.finish_ok, hname, hacc]
    rfl

/-- R16: every operation answers the transaction level's function of its request. -/
theorem exec_eq_answer (i : Instr) (s : State) : exec i s = s.answer (respond s.capacity i) := by
  cases i with
  | crc4 data => exact execCrc4_eq data s
  | hdrPack flag nameLen textLen crc => rfl
  | hdrUnpack hdr => rfl
  | chunk text => exact execChunk_eq text s
  | encode name text => exact execEncode_eq name text s
  | decode buf => exact execDecode_eq buf s

theorem exec_next_iff {i : Instr} {s t : State} :
    exec i s = .next t ↔ ∃ r, respond s.capacity i = .ok r ∧ t = s.deliver r := by
  rw [exec_eq_answer, State.answer_eq_next_iff]

/-- Settles O23: each loop over the working registers computes the transaction level's function. -/
theorem stepLevelAgreesWithTransactionLevel : Obligations.StepLevelAgreesWithTransactionLevel := by
  unfold Obligations.StepLevelAgreesWithTransactionLevel
  intro i s
  rw [exec_eq_answer]
  cases respond s.capacity i <;> rfl

/-- Settles O19: the transaction level's function takes the capacities and the request only. -/
theorem responseDependsOnRequestOnly : Obligations.ResponseDependsOnRequestOnly := by
  unfold Obligations.ResponseDependsOnRequestOnly
  intro i s u hcap
  have hworking (t : State) (ht : exec i s = .next t) : t.working = Working.initial := by
    obtain ⟨r, -, rfl⟩ := exec_next_iff.1 ht
    rfl
  obtain ⟨hresponse, hrefusal⟩ : responseOf (exec i s) = responseOf (exec i u) ∧ refusalOf (exec i s) = refusalOf (exec i u) := by
    rw [exec_eq_answer i s, exec_eq_answer i u, hcap]
    cases respond u.capacity i <;> exact ⟨rfl, rfl⟩
  exact ⟨hresponse, hrefusal, hworking⟩

/-- Settles O20: an operation that completes delivers a response, which replaces the response and the working state only. -/
theorem operationFrame : Obligations.OperationFrame := by
  unfold Obligations.OperationFrame
  intro i s t h
  obtain ⟨r, -, rfl⟩ := exec_next_iff.1 h
  rfl

/-! ## The responses of each operation -/

/-- The bytes of a range that starts in the text and ends with its chunk. -/
theorem slice_chunk_length (text : Bytes) (i : Nat) :
    (slice text (chunkOff i, chunkLen text.length i)).length = chunkLen text.length i := by
  simp only [slice, List.length_take, List.length_drop, chunkLen_eq, chunkOff_eq]
  omega

/-- The packets of the first `k` chunks hold `k` headers, `k` names and the text up to the end of the last of the chunks. -/
theorem packets_length (name text : Bytes) (k : Nat) :
    ((List.range k).flatMap fun i => packet name (slice text (chunkOff i, chunkLen text.length i))).length =
      k * (2 + name.length) + min (31 * k) text.length := by
  induction k with
  | zero => simp
  | succ k ih =>
    rw [List.range_succ, List.flatMap_append, List.length_append, ih, List.flatMap_singleton, packet_length,
      slice_chunk_length, chunkLen_eq, Nat.add_mul]
    omega

/-- R81: the length of ENCODE's output. -/
theorem encodeMessage_length (name text : Bytes) :
    (encodeMessage name text).length = encodedLength name.length text.length := by
  have h := packets_length name text (chunkCount text.length)
  rw [encodeMessage, chunkRanges, List.flatMap_map, h, encodedLength, chunkCount_eq]
  omega

/-- The packets of a buffer: a name has at most 15 bytes, since R48 gives its length four bits, and the texts lie in the buffer. -/
theorem splitPackets_bounds {n : Nat} {buf : Bytes} {ps : List (Bytes × Bytes)} (h : splitPackets n buf = .ok ps) :
    (∀ p ∈ ps, p.1.length ≤ 15) ∧ (ps.map (·.2)).flatten.length ≤ buf.length := by
  induction n generalizing buf ps with
  | zero =>
    match buf with
    | [] =>
      cases h
      simp
    | _ :: _ => cases h
  | succ n ih =>
    match buf with
    | [] =>
      cases h
      simp
    | [_] => cases h
    | b0 :: b1 :: rest =>
      rw [splitPackets] at h
      generalize Header.ofBytes b0 b1 = hdr at h
      split at h
      · cases h
      split at h
      · cases h
      split at h
      · cases h
      split at h
      · rename_i qs hqs
        cases h
        obtain ⟨hname, htext⟩ := ih hqs
        have hn := hdr.nameLen.isLt
        refine ⟨List.forall_mem_cons.2 ⟨?_, hname⟩, ?_⟩
        · simp only [List.length_take]
          omega
        · simp only [List.length_drop] at htext
          simp only [List.map_cons, List.flatten_cons, List.length_append, List.length_take, List.length_drop, List.length_cons]
          omega
      · cases h

theorem decodeMessage_bounds {buf : Bytes} {m : Bytes × Bytes} (h : decodeMessage buf = .ok m) :
    m.1.length ≤ 15 ∧ m.2.length ≤ buf.length := by
  unfold decodeMessage packetsOf at h
  split at h
  · cases h
  split at h
  · rename_i ps hps
    cases h
    obtain ⟨hname, htext⟩ := splitPackets_bounds hps
    refine ⟨?_, htext⟩
    cases ps with
    | nil => exact Nat.zero_le _
    | cons p ps => exact hname p List.mem_cons_self
  · cases h

open Sys2Proof.Safety

/-- The shape of every response an operation gives: an error's, or OK with the fields that R20 says the operation sets, each within
its bounds. -/
inductive Responds (c : Config.Capacity) : Instr → Response → Prop
  | error (i : Instr) (e : ErrorCode) : Responds c i (Response.error e)
  | crc4 (data : Bytes) (v : BitVec 4) : Responds c (.crc4 data) { Response.ok with crc := some (v.setWidth 8) }
  | hdrPack (f : BitVec 3) (n : BitVec 4) (t : BitVec 5) (k : BitVec 4) (hdr : BitVec 16) :
    Responds c (.hdrPack f n t k) { Response.ok with hdrOut := some hdr }
  | hdrUnpack (hdr : BitVec 16) (h : Header) : Responds c (.hdrUnpack hdr)
      { Response.ok with
        uFlag := some h.flag, uNameLen := some h.nameLen, uTextLen := some h.textLen, uCrc4 := some h.crc4 }
  | chunk (text : Bytes) (ranges : List (Nat × Nat)) (hn : ranges.length ≤ (c.maxTextLen + 30) / 31) :
    Responds c (.chunk text) { Response.ok with nChunks := some ranges.length, chunks := some ranges }
  | encode (name text out : Bytes) (hout : out.length ≤ c.maxBufLen) :
    Responds c (.encode name text) { Response.ok with out := some out }
  | decode (buf name text : Bytes) (hname : name.length ≤ 15) (htext : text.length ≤ c.maxBufLen) :
    Responds c (.decode buf) { Response.ok with dName := some name, dText := some text }

theorem chunkRanges_length (len : Nat) : (chunkRanges len).length = chunkCount len := by
  simp [chunkRanges]

theorem respond_responds {c : Config.Capacity} {i : Instr} {r : Response} (h : respond c i = .ok r) : Responds c i r := by
  cases i with
  | crc4 data =>
    rw [respond] at h
    split at h <;> cases h
    exact .crc4 data _
  | hdrPack f n t k =>
    cases h
    exact .hdrPack f n t k _
  | hdrUnpack hdr =>
    cases h
    exact .hdrUnpack hdr _
  | chunk text =>
    rw [respond] at h
    split at h <;> cases h
    rw [← chunkRanges_length]
    refine .chunk text _ ?_
    rw [chunkRanges_length, chunkCount_eq]
    omega
  | encode name text =>
    rw [respond] at h
    split at h
    · cases h
    split at h
    · cases h
      exact .error _ _
    split at h <;> cases h
    refine .encode name text _ ?_
    rw [encodeMessage_length]
    omega
  | decode buf =>
    rw [respond] at h
    split at h
    · cases h
    split at h <;> cases h
    · rename_i m hm
      obtain ⟨hname, htext⟩ := decodeMessage_bounds hm
      exact .decode buf m.1 m.2 hname (by omega)
    · exact .error _ _

theorem exec_responds {i : Instr} {s t : State} (h : exec i s = .next t) : Responds s.capacity i t.response := by
  obtain ⟨r, hr, rfl⟩ := exec_next_iff.1 h
  exact respond_responds hr

/-- R103: after an error the status is specified and nothing else. -/
theorem Response.error_field_ne_none_iff (e : ErrorCode) (f : ResponseField) :
    (Response.error e).field f ≠ none ↔ f = .status := by
  constructor
  · intro h
    by_contra hf
    exact h (Response.error_field e f hf)
  · rintro rfl
    nofun

/-- R20: an error's response specifies the status only, every other response the status and the operation's fields. -/
theorem Responds.fields {c : Config.Capacity} {i : Instr} {r : Response} (h : Responds c i r) :
    (∃ e, r = Response.error e) ∨ r.status = some statusOk ∧ ∀ f, r.field f ≠ none ↔ (f = .status ∨ f ∈ fieldsOf i) := by
  cases h with
  | error i e => exact .inl ⟨e, rfl⟩
  | _ =>
    refine .inr ⟨rfl, fun f => ?_⟩
    cases f <;> simp [Response.field, fieldsOf, Response.ok, Response.unspecified]

/-- Settles O21: an error's status is not OK, so the two cases of what a response specifies are the statement's. -/
theorem responseFieldsPerOperation : Obligations.ResponseFieldsPerOperation := by
  unfold Obligations.ResponseFieldsPerOperation
  intro i s t h
  rcases (exec_responds h).fields with ⟨e, he⟩ | ⟨hok, hfields⟩
  · rw [he]
    exact ⟨fun hst => absurd (Option.some.inj hst) e.status_ne_ok, fun _ => Response.error_field_ne_none_iff e⟩
  · exact ⟨fun _ => hfields, fun hst => absurd hok hst⟩

/-! ## The invariant -/

theorem legalResponse_unspecified (c : Config.Capacity) : LegalResponse c Response.unspecified := by
  constructor <;> simp [Response.unspecified]

theorem legalResponse_error (c : Config.Capacity) (e : ErrorCode) : LegalResponse c (Response.error e) := by
  constructor
  case status_produced =>
    rintro st ⟨⟩
    cases e <;> decide
  all_goals simp [Response.error, Response.unspecified]

theorem Responds.legal {c : Config.Capacity} {i : Instr} {r : Response} (h : Responds c i r) : LegalResponse c r := by
  cases h with
  | error i e => exact legalResponse_error c e
  | crc4 data v =>
    constructor
    case crc_nibble =>
      rintro _ ⟨⟩
      rw [BitVec.toNat_setWidth]
      exact Nat.lt_of_le_of_lt (Nat.mod_le _ _) v.isLt
    all_goals simp [Response.ok, Response.unspecified, statusOk]
  | _ =>
    constructor <;> simp_all [Response.ok, Response.unspecified, statusOk]

/-- Delivery discards the working state (R28), so the invariant asks only for a legal response. -/
theorem inv_deliver {s : State} {r : Response} (h : LegalResponse s.capacity r) : Inv (s.deliver r) := ⟨rfl, h⟩

theorem inv_applyReset (s : State) : Inv s.applyReset := ⟨rfl, legalResponse_unspecified _⟩

/-- Settles O13: no response field is specified after reset. -/
theorem invariantHoldsAtReset : Obligations.InvariantHoldsAtReset := by
  unfold Obligations.InvariantHoldsAtReset
  have hreset (c : Config.Capacity) : Inv (State.afterReset c) := ⟨rfl, legalResponse_unspecified c⟩
  exact ⟨hreset _, hreset⟩

theorem runRequest_of_decode {r : EncodedRequest} {i : Instr} (h : decode r = .ok i) (s : State) :
    runRequest r s = exec i (s.accept r) := by
  simp [runRequest, h]

/-- A request that completes runs its operation or, for a reserved cmd, aborts (R57). -/
theorem runRequest_next {r : EncodedRequest} {s t : State} (h : runRequest r s = .next t) :
    (∃ i, exec i (s.accept r) = .next t) ∨ t = (s.accept r).abort .illegalOp := by
  unfold runRequest at h
  split at h
  · exact .inl ⟨_, h⟩
  · cases h
    exact .inr rfl
  · cases h

theorem runRequest_keeps_inv {r : EncodedRequest} {s t : State} (h : runRequest r s = .next t) : Inv t := by
  rcases runRequest_next h with ⟨i, hi⟩ | rfl
  · obtain ⟨resp, hresp, rfl⟩ := exec_next_iff.1 hi
    exact inv_deliver (respond_responds hresp).legal
  · exact inv_deliver (legalResponse_error _ _)

theorem perform_keeps_inv {a : HostAction} {s t : State} (hs : Inv s) (h : perform a s = .next t) : Inv t := by
  cases a with
  | request r => exact runRequest_keeps_inv h
  | requestThenReset r =>
    rw [runThenReset_next h]
    exact inv_applyReset s
  | reset =>
    cases h
    exact inv_applyReset s
  | read f =>
    obtain ⟨v, rfl⟩ := readResponse_next h
    exact ⟨hs.working_initial, hs.response_legal⟩

/-- A step of an idle block changes nothing; every other step performs the host's next action. -/
theorem step_next {s t : State} (h : step s = .next t) :
    t = s ∨ ∃ a rest, s.inbox = a :: rest ∧ perform a { s with inbox := rest } = .next t := by
  unfold step hostStep at h
  split at h
  · cases h
    exact .inl rfl
  · exact .inr ⟨_, _, ‹_›, h⟩

/-- Settles O14: an idle step changes nothing, and each action of the host keeps the invariant. -/
theorem stepKeepsInvariant : Obligations.StepKeepsInvariant := by
  unfold Obligations.StepKeepsInvariant
  intro s t hs h
  rcases step_next h with rfl | ⟨a, rest, -, ha⟩
  · exact hs
  · exact perform_keeps_inv (s := { s with inbox := rest }) ⟨hs.working_initial, hs.response_legal⟩ ha

/-! ## Steps and the initial values -/

theorem step_of_inbox_cons {s : State} {a : HostAction} {rest : List HostAction} (h : s.inbox = a :: rest) :
    step s = perform a { s with inbox := rest } := by
  simp [step, hostStep, h]

/-- Settles O4: the step performs the request, and its cmd and operands select the operation. -/
theorem stepRunsDecodedInstruction : Obligations.StepRunsDecodedInstruction := by
  unfold Obligations.StepRunsDecodedInstruction
  intro s r rest i hinbox hdecode
  rw [step_of_inbox_cons hinbox]
  exact runRequest_of_decode hdecode _

/-- Settles O11: reset and the start of an operation both leave the initial working state. -/
theorem initialValues : Obligations.InitialValues := by
  unfold Obligations.InitialValues
  refine ⟨fun c => ⟨rfl, Response.unspecified_field, rfl⟩, fun w hw => ?_⟩
  obtain rfl : w = Working.initial := by
    rcases hw with ⟨c, rfl⟩ | ⟨s, rfl⟩ <;> rfl
  exact ⟨rfl, rfl, rfl, rfl, rfl, rfl, rfl, rfl, rfl⟩

end Sys2Proof.Machine

/-! PROOFS. A request and the word that stands for one (spec/20_memory.md R37): the request fields are written by the host and by no
operation, and a word of the opcode table runs as the request it stands for. -/

namespace Sys2Proof.Machine

/-- Settles O10: the step takes the request up, and the response it delivers is no field of the host's. -/
theorem requestStepLeavesRequestAsIssued : Obligations.RequestStepLeavesRequestAsIssued := by
  unfold Obligations.RequestStepLeavesRequestAsIssued
  intro s t r rest hinbox h
  rw [step_of_inbox_cons hinbox] at h
  obtain ⟨resp, rfl⟩ := (runRequest_answered r _).next_eq h
  exact ⟨rfl, rfl, rfl, rfl⟩

/-- A word that decodes is a cmd byte whose request decodes. -/
theorem decode_tableRequest_of_decodeTableWord {nbits w : Nat} {i : Instr} (h : decodeTableWord nbits w = some i) :
    decode (tableRequest w) = .ok i := by
  unfold decodeTableWord at h
  split at h
  · split at h
    · rename_i hdecode
      cases h
      exact hdecode
    · cases h
  · cases h

/-- Settles O5: the placed word is the host's next request, so the step runs it as O4 says. -/
theorem placedTableWordRuns : Obligations.PlacedTableWordRuns := by
  unfold Obligations.PlacedTableWordRuns
  intro s nbits w i h
  exact stepRunsDecodedInstruction (s.withFetchWord nbits w) (tableRequest w) s.inbox i
    (s.withFetchWord_inbox nbits w) (decode_tableRequest_of_decodeTableWord h)

end Sys2Proof.Machine

/-! PROOFS. The encodings of spec/30_encoding.md: which requests and opcode-table words the decoder takes and rejects (R56, R57),
the header's bits in its two bytes (R48, R49, R54), and the lines of a program (R59 to R61). -/

namespace Sys2Proof

/-! ## Requests and opcode-table words -/

theorem decode_of_encode {r : EncodedRequest} {i : Instr} (hwf : i.wellFormed = true) (henc : encode i = r) :
    decode r = .ok i :=
  (decodeAndEncodeAgree r i).2 ⟨hwf, henc⟩

/-- A cmd that is none of R56's rows is rejected, whatever the operands (R57). -/
theorem decode_reserved {r : EncodedRequest} (h : 6 ≤ r.cmd.toNat) : decode r = .error (.reservedCmd r.cmd) := by
  unfold decode
  split
  case h_7 => rfl
  all_goals omega

/-- Settles O2: each request is the encoding of its operation, which O1 decodes; and 0x84 is a reserved cmd. -/
theorem writtenRequestsDecode : Obligations.WrittenRequestsDecode := by
  unfold Obligations.WrittenRequestsDecode
  refine ⟨?_, ?_, ?_, ?_, ?_, ?_, decode_reserved (r := ⟨0x84#8, []⟩) (by decide)⟩ <;> exact decode_of_encode rfl rfl

/-- A word decodes to the operation whose encoding is the word's request. -/
theorem decodeTableWord_of_encode {w : Nat} {i : Instr} (hw : w < 256) (hwf : i.wellFormed = true)
    (henc : encode i = tableRequest w) : decodeTableWord 8 w = some i := by
  simp [decodeTableWord, hw, decode_of_encode hwf henc]

theorem decodeTableWord_reserved {w : Nat} (hw : 6 ≤ w) : decodeTableWord 8 w = none := by
  by_cases hbyte : w < 256
  · have hcmd : 6 ≤ (tableRequest w).cmd.toNat := by simpa [tableRequest, Nat.mod_eq_of_lt hbyte] using hw
    simp [decodeTableWord, decode_reserved hcmd]
  · simp [decodeTableWord, hbyte]

/-- Settles O3: each row's word stands for an encoding, and a larger word is a reserved cmd or no byte at all. -/
theorem opcodeTableWordsDecode : Obligations.OpcodeTableWordsDecode := by
  unfold Obligations.OpcodeTableWordsDecode
  refine ⟨?_, ?_, ?_, ?_, ?_, ?_, fun w hw => decodeTableWord_reserved hw⟩ <;>
    exact decodeTableWord_of_encode (by decide) rfl rfl

/-- Settles O35: each pseudo-operation expands to the operation of its row. -/
theorem pseudoOperationsExpand : Obligations.PseudoOperationsExpand := by
  unfold Obligations.PseudoOperationsExpand
  exact ⟨fun _ _ => rfl, fun _ _ _ => rfl, fun _ => rfl⟩

end Sys2Proof

namespace Sys2Proof.Machine

/-- A request of a reserved cmd takes the abort with IllegalOp (R57, R103). -/
theorem runRequest_reserved {r : EncodedRequest} (h : 6 ≤ r.cmd.toNat) (s : State) :
    runRequest r s = .next ((s.accept r).abort .illegalOp) := by
  simp [runRequest, decode_reserved h]

/-- Settles O6: the step takes the request up, and the decoder rejects its cmd before any operand is read. -/
theorem reservedCmdIsIllegalOp : Obligations.ReservedCmdIsIllegalOp := by
  unfold Obligations.ReservedCmdIsIllegalOp
  intro s r rest hinbox hcmd
  rw [step_of_inbox_cons hinbox]
  exact runRequest_reserved hcmd _

/-! ## The header's two bytes -/

theorem headerByte0_getLsbD (v : BitVec 16) (i : Nat) : (headerByte0 v).getLsbD i = (decide (i < 8) && v.getLsbD (8 + i)) :=
  BitVec.getLsbD_extractLsb' 8 8 v i

theorem headerByte1_getLsbD (v : BitVec 16) (i : Nat) : (headerByte1 v).getLsbD i = (decide (i < 8) && v.getLsbD i) := by
  simp [headerByte1]

theorem headerByte0_toNat (v : BitVec 16) : (headerByte0 v).toNat = v.toNat / 256 := by
  have hv : v.toNat < 2 ^ 16 := v.isLt
  simp only [headerByte0, BitVec.extractLsb'_toNat, Nat.shiftRight_eq_div_pow]
  omega

/-- The bits of a packed header, from the lowest field up (R47). -/
theorem Header.pack_getLsbD (h : Header) (i : Nat) :
    h.pack.getLsbD i =
      if i < 4 then h.crc4.getLsbD i
      else if i < 9 then h.textLen.getLsbD (i - 4)
      else if i < 13 then h.nameLen.getLsbD (i - 9)
      else h.flag.getLsbD (i - 13) := by
  have htext : i - 4 < 5 ↔ i < 9 := by omega
  have hname : i - 4 - 5 < 4 ↔ i < 13 := by omega
  simp only [Header.pack, BitVec.getLsbD_append, htext, hname]
  rfl

/-- The flag of a valid packet leaves byte0 the 32 values of its low five bits. -/
theorem headerByte0_pack_range {h : Header} (hflag : h.flag = 0b101#3) :
    0xA0 ≤ (headerByte0 h.pack).toNat ∧ (headerByte0 h.pack).toNat ≤ 0xBF := by
  have hf : h.flag.toNat = 5 := by rw [hflag]; rfl
  have hn : h.nameLen.toNat < 2 ^ 4 := h.nameLen.isLt
  have ht : h.textLen.toNat < 2 ^ 5 := h.textLen.isLt
  have hc : h.crc4.toNat < 2 ^ 4 := h.crc4.isLt
  rw [headerByte0_toNat, Header.pack_toNat, hf]
  omega

/-- Settles O31: each bit of the two bytes is the bit of the packed header at that place. -/
theorem headerByteLayout : Obligations.HeaderByteLayout := by
  unfold Obligations.HeaderByteLayout
  intro h
  refine ⟨headerByte0 h.pack, headerByte1 h.pack, rfl, ?_⟩
  simp only [headerByte0_getLsbD, headerByte1_getLsbD, Header.pack_getLsbD]
  exact ⟨rfl, rfl, rfl, rfl, rfl, rfl, rfl, rfl, rfl, rfl, rfl, rfl, rfl, rfl, rfl, rfl, headerByte0_pack_range⟩

/-- Settles O32: each field lies in one byte, but for text_len, which is cut where the bytes meet. -/
theorem headerFieldsFromBytes : Obligations.HeaderFieldsFromBytes := by
  unfold Obligations.HeaderFieldsFromBytes
  intro b0 b1
  have htext : (b0 ++ b1).extractLsb' 4 5 = b0.extractLsb' 0 1 ++ b1.extractLsb' 4 4 := by
    calc (b0 ++ b1).extractLsb' 4 5
      _ = (b0 ++ b1).extractLsb' 8 1 ++ (b0 ++ b1).extractLsb' 4 4 :=
        (BitVec.extractLsb'_append_extractLsb'_eq_extractLsb' (start₁ := 4) (len₁ := 4) (len₂ := 1) rfl).symm
      _ = b0.extractLsb' 0 1 ++ b1.extractLsb' 4 4 := by
        rw [BitVec.extractLsb'_append_eq_of_le (by decide), BitVec.extractLsb'_append_eq_of_add_le (by decide)]
  exact ⟨BitVec.extractLsb'_append_eq_of_le (by decide), BitVec.extractLsb'_append_eq_of_le (by decide), htext,
    BitVec.extractLsb'_append_eq_of_add_le (by decide)⟩

/-- Settles O33: the widths of the two length fields bound the size. -/
theorem packetSizeBounds : Obligations.PacketSizeBounds := by
  unfold Obligations.PacketSizeBounds
  intro h
  have hn : h.nameLen.toNat < 2 ^ 4 := h.nameLen.isLt
  have ht : h.textLen.toNat < 2 ^ 5 := h.textLen.isLt
  unfold Header.packetSize
  omega

/-! ## What an operand of a line stands for -/

section Operands

variable {env : Bindings}

/-- An ASCII string stands for its characters, "each character one byte by identity mapping" (R59). -/
theorem asciiBytes_of_ascii {cs : List Char} (h : ∀ c ∈ cs, c.toNat < 128) :
    asciiBytes cs = .ok (cs.map fun c => BitVec.ofNat 8 c.toNat) := by
  induction cs with
  | nil => rfl
  | cons c cs ih =>
    obtain ⟨hc, hcs⟩ := List.forall_mem_cons.1 h
    simp [asciiBytes, hc, ih hcs, Except.map]

theorem evalOperand_ascii {cs : List Char} (h : ∀ c ∈ cs, c.toNat < 128) :
    evalOperand env (.ascii cs) = .ok (.inr (cs.map fun c => BitVec.ofNat 8 c.toNat)) := by
  rw [evalOperand, asciiBytes_of_ascii h]
  rfl

section Results

variable {l : String} {f : ResponseField} {r : Response} (hr : env.lookup l = some r)
include hr

theorem resultField_of_field {v : FieldValue} (hf : r.field f = some v) : resultField env l f = .ok v := by
  simp [resultField, hr, hf]

theorem evalOperand_result_word {w v : Nat} (hf : r.field f = some (.word w v)) :
    evalOperand env (.result l f) = .ok (.inl v) := by
  rw [evalOperand, resultField_of_field hr hf]
  rfl

theorem evalOperand_result_natural {v : Nat} (hf : r.field f = some (.natural v)) :
    evalOperand env (.result l f) = .ok (.inl v) := by
  rw [evalOperand, resultField_of_field hr hf]
  rfl

theorem evalOperand_result_bytes {b : Bytes} (hf : r.field f = some (.bytes b)) :
    evalOperand env (.result l f) = .ok (.inr b) := by
  rw [evalOperand, resultField_of_field hr hf]
  rfl

/-- A field that must not be read stands for nothing (R103). -/
theorem evalOperand_result_unspecified (hf : r.field f = none) :
    evalOperand env (.result l f) = .error (.unspecifiedResult f) := by
  have hfield : resultField env l f = .error (.unspecifiedResult f) := by simp [resultField, hr, hf]
  rw [evalOperand, hfield]
  rfl

end Results

/-! ## What is transcribed of an operand, by its kind -/

variable {o : LineOperand}

theorem transcribeOperand_of_error {e : LineError} (h : evalOperand env o = .error e) (k : OperandKind) :
    transcribeOperand env k o = .error e := by
  rw [transcribeOperand, h]
  rfl

theorem transcribeOperand_field {v : Nat} (h : evalOperand env o = .ok (.inl v)) (w : Nat) :
    transcribeOperand env (.field w) o = if v < 2 ^ w then .ok (.number v) else .error (.doesNotFit w v) := by
  rw [transcribeOperand, h]
  rfl

theorem transcribeOperand_header_number {v : Nat} (h : evalOperand env o = .ok (.inl v)) :
    transcribeOperand env .header o =
      if v < 2 ^ 16 then .ok (.bytePair (BitVec.ofNat 8 (v / 256)) (BitVec.ofNat 8 v)) else .error (.doesNotFit 16 v) := by
  rw [transcribeOperand, h]
  rfl

theorem transcribeOperand_header_bytes {b0 b1 : Byte} (h : evalOperand env o = .ok (.inr [b0, b1])) :
    transcribeOperand env .header o = .ok (.bytePair b0 b1) := by
  rw [transcribeOperand, h]
  rfl

theorem transcribeOperand_sequence {b : Bytes} (h : evalOperand env o = .ok (.inr b)) :
    transcribeOperand env .sequence o = .ok (.sequence b.length b) := by
  rw [transcribeOperand, h]
  rfl

/-- The value of a field fits the field. -/
theorem transcribeOperand_field_value {w : Nat} {x : BitVec w} (h : evalOperand env o = .ok (.inl x.toNat)) :
    transcribeOperand env (.field w) o = .ok (.number x.toNat) := by
  rw [transcribeOperand_field h, if_pos x.isLt]

/-- A header is transcribed into its two bytes, whether it is written as a number or as the bytes (R59, D26). -/
theorem transcribeOperand_header_value {h : BitVec 16}
    (ho : evalOperand env o = .ok (.inl h.toNat) ∨ evalOperand env o = .ok (.inr [h.extractLsb' 8 8, h.extractLsb' 0 8])) :
    transcribeOperand env .header o = .ok (.bytePair (h.extractLsb' 8 8) (h.extractLsb' 0 8)) := by
  rcases ho with hnumber | hbytes
  · rw [transcribeOperand_header_number hnumber, if_pos h.isLt]
    simp [BitVec.extractLsb', Nat.shiftRight_eq_div_pow]
  · exact transcribeOperand_header_bytes hbytes

/-! ## The lines -/

theorem transcribeOperands_cons {k : OperandKind} {ks : List OperandKind} {os : List LineOperand} {v : OperandValue}
    {vs : List OperandValue} (hv : transcribeOperand env k o = .ok v) (hvs : transcribeOperands env ks os = .ok vs) :
    transcribeOperands env (k :: ks) (o :: os) = .ok (v :: vs) := by
  rw [transcribeOperands, hv, hvs]
  rfl

theorem transcribeOperands_sequence {b : Bytes} (h : evalOperand env o = .ok (.inr b)) :
    transcribeOperands env [.sequence] [o] = .ok [.sequence b.length b] :=
  transcribeOperands_cons (transcribeOperand_sequence h) rfl

/-- The four fields of HDR_PACK, in the order of R56. -/
theorem transcribeOperands_headerFields {p q k : LineOperand} {f : BitVec 3} {n : BitVec 4} {t : BitVec 5} {c : BitVec 4}
    (ho : evalOperand env o = .ok (.inl f.toNat)) (hp : evalOperand env p = .ok (.inl n.toNat))
    (hq : evalOperand env q = .ok (.inl t.toNat)) (hk : evalOperand env k = .ok (.inl c.toNat)) :
    transcribeOperands env [.field 3, .field 4, .field 5, .field 4] [o, p, q, k] =
      .ok [.number f.toNat, .number n.toNat, .number t.toNat, .number c.toNat] :=
  transcribeOperands_cons (transcribeOperand_field_value ho) <|
    transcribeOperands_cons (transcribeOperand_field_value hp) <|
      transcribeOperands_cons (transcribeOperand_field_value hq) <|
        transcribeOperands_cons (transcribeOperand_field_value hk) rfl

/-- A line is its operation's cmd and the values of its operands (R61). -/
theorem Line.transcribe_of_operands {l : Line} {vs : List OperandValue}
    (h : transcribeOperands env l.op.shape.2 l.expandedOperands = .ok vs) :
    l.transcribe env = .ok ⟨l.op.shape.1, vs⟩ := by
  rw [Line.transcribe, h]
  rfl

theorem transcribe_encode_line (label : Option String) {p : LineOperand} {b c : Bytes}
    (ho : evalOperand env o = .ok (.inr b)) (hp : evalOperand env p = .ok (.inr c)) :
    Line.transcribe env ⟨label, .encode, [o, p]⟩ = .ok (encode (.encode b c)) :=
  Line.transcribe_of_operands (transcribeOperands_cons (transcribeOperand_sequence ho) (transcribeOperands_sequence hp))

theorem transcribe_hdrUnpack_line (label : Option String) {h : BitVec 16}
    (ho : evalOperand env o = .ok (.inl h.toNat) ∨ evalOperand env o = .ok (.inr [h.extractLsb' 8 8, h.extractLsb' 0 8])) :
    Line.transcribe env ⟨label, .hdrUnpack, [o]⟩ = .ok (encode (.hdrUnpack h)) :=
  Line.transcribe_of_operands (transcribeOperands_cons (transcribeOperand_header_value ho) rfl)

theorem transcribe_hdrPack_line (label : Option String) {p q k : LineOperand} {f : BitVec 3} {n : BitVec 4} {t : BitVec 5}
    {c : BitVec 4} (ho : evalOperand env o = .ok (.inl f.toNat)) (hp : evalOperand env p = .ok (.inl n.toNat))
    (hq : evalOperand env q = .ok (.inl t.toNat)) (hk : evalOperand env k = .ok (.inl c.toNat)) :
    Line.transcribe env ⟨label, .hdrPack, [o, p, q, k]⟩ = .ok (encode (.hdrPack f n t c)) :=
  Line.transcribe_of_operands (transcribeOperands_headerFields ho hp hq hk)

theorem transcribe_prehdr_line (label : Option String) {p q : LineOperand} {n : BitVec 4} {t : BitVec 5}
    (hp : evalOperand env p = .ok (.inl n.toNat)) (hq : evalOperand env q = .ok (.inl t.toNat)) :
    Line.transcribe env ⟨label, .prehdr, [p, q]⟩ = .ok (encode (.hdrPack 0b101#3 n t 0#4)) :=
  Line.transcribe_of_operands (transcribeOperands_headerFields (f := 0b101#3) (c := 0#4) rfl hp hq rfl)

theorem transcribe_finhdr_line (label : Option String) {p q k : LineOperand} {n : BitVec 4} {t : BitVec 5} {c : BitVec 4}
    (hp : evalOperand env p = .ok (.inl n.toNat)) (hq : evalOperand env q = .ok (.inl t.toNat))
    (hk : evalOperand env k = .ok (.inl c.toNat)) :
    Line.transcribe env ⟨label, .finhdr, [p, q, k]⟩ = .ok (encode (.hdrPack 0b101#3 n t c)) :=
  Line.transcribe_of_operands (transcribeOperands_headerFields (f := 0b101#3) rfl hp hq hk)

/-- The line that writes an operation with numbers and hex bytes, each of which stands for itself. -/
theorem transcribe_ofInstr (env : Bindings) (label : Option String) (i : Instr) :
    (Line.ofInstr label i).transcribe env = .ok (encode i) := by
  cases i with
  | crc4 data => exact Line.transcribe_of_operands (transcribeOperands_sequence rfl)
  | hdrPack f n t c => exact transcribe_hdrPack_line label rfl rfl rfl rfl
  | hdrUnpack hdr => exact transcribe_hdrUnpack_line label (.inl rfl)
  | chunk text => exact Line.transcribe_of_operands (transcribeOperands_sequence rfl)
  | encode name text => exact transcribe_encode_line label rfl rfl
  | decode buf => exact Line.transcribe_of_operands (transcribeOperands_sequence rfl)

end Operands

/-- Settles O37: a number that does not fit fails its kind's bound, and an unspecified field stands for nothing. -/
theorem badProgramOperandsAreRefused : Obligations.BadProgramOperandsAreRefused := by
  unfold Obligations.BadProgramOperandsAreRefused
  refine ⟨fun env w v hv => ?_, fun env v hv => ?_, fun env k l f r hr hf => ?_⟩
  · rw [transcribeOperand_field rfl, if_neg (Nat.not_lt.2 hv)]
  · rw [transcribeOperand_header_number rfl, if_neg (Nat.not_lt.2 hv)]
  · exact transcribeOperand_of_error (evalOperand_result_unspecified hr hf) k

/-- Settles O36: a line is transcribed by what its operands stand for alone, and each operand form stands for what R59 says. -/
theorem programLinesTranscribe : Obligations.ProgramLinesTranscribe := by
  unfold Obligations.ProgramLinesTranscribe
  intro env label
  refine ⟨transcribe_ofInstr env label, fun n t => transcribe_prehdr_line label rfl rfl,
    fun n t c => transcribe_finhdr_line label rfl rfl rfl,
    fun b => Line.transcribe_of_operands (transcribeOperands_sequence rfl), fun cmd => rfl, fun v => rfl, fun b => rfl,
    fun cs => evalOperand_ascii, ?results, ?sequences, fun o h => transcribe_hdrUnpack_line label, ?fields⟩
  case results =>
    intro l f r hr
    exact ⟨fun w v => evalOperand_result_word hr, fun v => evalOperand_result_natural hr,
      fun b => evalOperand_result_bytes hr⟩
  case sequences =>
    intro o b ho
    have hvs := transcribeOperands_sequence ho
    exact ⟨Line.transcribe_of_operands hvs, Line.transcribe_of_operands hvs, Line.transcribe_of_operands hvs,
      Line.transcribe_of_operands hvs, fun p c => transcribe_encode_line label ho⟩
  case fields =>
    intro o p q k f n t c ho hp hq hk
    exact ⟨transcribe_hdrPack_line label ho hp hq hk, transcribe_prehdr_line label hp hq,
      transcribe_finhdr_line label hp hq hk⟩

end Sys2Proof.Machine

/-! PROOFS. The CRC-4/ITU (spec/40_crc4.md R62 to R67): the register step is linear over XOR, and the byte-wise form, the range, the
leading zeros and the rule of joined sequences follow. -/

namespace Sys2Proof.Machine

/-! ## The operation -/

/-- A byte's bits in the order of R63, bit 0 first. -/
theorem crcByte_eq_foldl_bits (c : BitVec 4) (b : Byte) :
    crcByte c b = ((List.range 8).map fun k => b.getLsbD k).foldl crcBit c := by
  rw [List.foldl_map, crcByte]

/-- R63: the bytes' bits, joined, go through the register one by one. -/
theorem crcFeed_eq_foldl_bits (c : BitVec 4) (bs : Bytes) :
    crcFeed c bs = (bs.flatMap fun b => (List.range 8).map fun k => b.getLsbD k).foldl crcBit c := by
  simp only [List.foldl_flatMap, ← crcByte_eq_foldl_bits, crcFeed]

/-- Settles O24: CRC4 answers the transaction level's response, whose CRC is the fold over the data's bits. -/
theorem crc4Operation : Obligations.Crc4Operation := by
  unfold Obligations.Crc4Operation
  intro data s
  rw [exec_eq_answer, respond]
  refine ⟨fun hfits => ?_, fun hbeyond => by rw [if_pos hbeyond, State.answer_error]⟩
  rw [if_neg (Nat.not_lt.2 hfits), State.answer_ok, crc4, crcFeed_eq_foldl_bits]
  rfl

/-! ## Linearity -/

/-- R63: two register steps differ by the step of their differences; the feedback bit selects the polynomial or nothing. -/
theorem crcBit_xor (c d : BitVec 4) (x y : Bool) : crcBit (c ^^^ d) (x ^^ y) = crcBit c x ^^^ crcBit d y := by
  have hfeedback : ((c ^^^ d).getLsbD 0 ^^ (x ^^ y)) = ((c.getLsbD 0 ^^ x) ^^ (d.getLsbD 0 ^^ y)) := by
    rw [BitVec.getLsbD_xor, Bool.xor_assoc, Bool.xor_left_comm (d.getLsbD 0), Bool.xor_assoc]
  have hselect (p q : Bool) : (if p ^^ q then Config.crcPoly else 0b0000#4) =
      (if p then Config.crcPoly else 0b0000#4) ^^^ (if q then Config.crcPoly else 0b0000#4) := by
    cases p <;> cases q <;> rfl
  simp only [crcBit, hfeedback, hselect, BitVec.ushiftRight_xor_distrib]
  ac_rfl

/-- The steps of any bits `ks` of two bytes. -/
theorem foldl_crcBit_xor (a b : Byte) (ks : List Nat) (c d : BitVec 4) :
    ks.foldl (fun r k => crcBit r ((a ^^^ b).getLsbD k)) (c ^^^ d) =
      ks.foldl (fun r k => crcBit r (a.getLsbD k)) c ^^^ ks.foldl (fun r k => crcBit r (b.getLsbD k)) d := by
  induction ks generalizing c d with
  | nil => rfl
  | cons k ks ih => simp only [List.foldl_cons, BitVec.getLsbD_xor, crcBit_xor, ← ih]

theorem crcByte_xor (c d : BitVec 4) (a b : Byte) : crcByte (c ^^^ d) (a ^^^ b) = crcByte c a ^^^ crcByte d b :=
  foldl_crcBit_xor a b (List.range 8) c d

@[simp] theorem crcFeed_cons (c : BitVec 4) (b : Byte) (bs : Bytes) : crcFeed c (b :: bs) = crcFeed (crcByte c b) bs := rfl

theorem crcFeed_zipWith_xor {a b : Bytes} (hlength : a.length = b.length) (c d : BitVec 4) :
    crcFeed (c ^^^ d) (List.zipWith (· ^^^ ·) a b) = crcFeed c a ^^^ crcFeed d b := by
  induction a generalizing b c d with
  | nil =>
    obtain rfl := List.eq_nil_of_length_eq_zero hlength.symm
    rfl
  | cons x a ih =>
    obtain ⟨y, b, rfl⟩ := List.exists_cons_of_length_eq_add_one hlength.symm
    simp only [List.zipWith_cons_cons, crcFeed_cons, crcByte_xor]
    exact ih (Nat.succ.inj hlength) _ _

/-- A zero byte leaves the initial register as it is. -/
theorem crcFeed_replicate_zero (n : Nat) : crcFeed 0x0#4 (List.replicate n 0x00#8) = 0x0#4 := by
  induction n with
  | zero => rfl
  | succ n ih => exact ih

/-- Settles O26: (b) is the register's linearity, and (c) is (d) for a first part of zeros. -/
theorem crcProperties : Obligations.CrcProperties := by
  unfold Obligations.CrcProperties
  refine ⟨?range, fun a b hlength => ?linear, fun n bs => ?leadingZeros, crcFeed_append _⟩
  case range =>
    intro bs
    rw [BitVec.toNat_setWidth_of_le (by decide)]
    exact Nat.le_of_lt_succ (crc4 bs).isLt
  case linear => exact crcFeed_zipWith_xor hlength 0x0#4 0x0#4
  case leadingZeros => rw [crc4, crcFeed_append, crcFeed_replicate_zero, crc4]

/-! ## The byte-wise form -/

/-- R64: the table's entries are the register values after each byte from 0. -/
theorem crcTable_eq_map : crcTable = (List.range 256).map fun n => crcByte 0x0#4 (BitVec.ofNat 8 n) := by
  decide +kernel

theorem crcTableAt_eq_crcByte (x : Byte) : crcTableAt x = crcByte 0x0#4 x := by
  have hx : x.toNat < 256 := x.isLt
  simp [crcTableAt, crcTable_eq_map, hx]

/-- The register enters a byte's steps as the byte's low nibble would: each bit is XORed with the register's bit 0. -/
theorem crcByte_zero_eq_setWidth (c : BitVec 4) : crcByte c 0x00#8 = crcByte 0x0#4 (c.setWidth 8) := by
  revert c
  decide

/-- R64: the byte-wise step is the eight steps of R63, by linearity in the register and the byte. -/
theorem crcTableByte_eq_crcByte (c : BitVec 4) (b : Byte) : crcTableByte c b = crcByte c b := by
  calc crcTableByte c b
    _ = crcByte (0x0#4 ^^^ 0x0#4) (c.setWidth 8 ^^^ b) := crcTableAt_eq_crcByte _
    _ = crcByte c 0x00#8 ^^^ crcByte 0x0#4 b := by rw [crcByte_xor, crcByte_zero_eq_setWidth]
    _ = crcByte (c ^^^ 0x0#4) (0x00#8 ^^^ b) := (crcByte_xor ..).symm
    _ = crcByte c b := by rw [BitVec.xor_zero, BitVec.zero_xor]

/-- Settles O25: the table is the byte step from 0, and the two steps agree from every register value. -/
theorem crcTableFormAgrees : Obligations.CrcTableFormAgrees := by
  unfold Obligations.CrcTableFormAgrees
  refine ⟨by rw [crcTable_eq_map, List.length_map, List.length_range], crcTableAt_eq_crcByte, fun bs => ?_⟩
  have hstep : crcTableByte = crcByte := funext₂ crcTableByte_eq_crcByte
  rw [crc4ByTable, hstep, crc4, crcFeed]

/-! ## Known values -/

/-- Settles O27: both vectors, run bit by bit. -/
theorem crcKnownValues : Obligations.CrcKnownValues := by
  unfold Obligations.CrcKnownValues
  exact ⟨by decide +kernel, by decide +kernel⟩

end Sys2Proof.Machine

/-! PROOFS. The header operations and the write of the crc4 nibble (spec/41_header.md R68 to R71). -/

namespace Sys2Proof.Machine

/-! ## HDR_PACK and HDR_UNPACK -/

theorem exec_hdrPack (f : BitVec 3) (n : BitVec 4) (t : BitVec 5) (c : BitVec 4) (s : State) :
    exec (.hdrPack f n t c) s = .next (s.deliver { Response.ok with hdrOut := some (Header.pack ⟨f, n, t, c⟩) }) := rfl

theorem exec_hdrUnpack (v : BitVec 16) (s : State) :
    exec (.hdrUnpack v) s = .next (s.deliver { Response.ok with
      uFlag := some (Header.unpack v).flag, uNameLen := some (Header.unpack v).nameLen
      uTextLen := some (Header.unpack v).textLen, uCrc4 := some (Header.unpack v).crc4 }) := rfl

theorem headerByte1_toNat (v : BitVec 16) : (headerByte1 v).toNat = v.toNat % 256 :=
  BitVec.extractLsb'_toNat ..

theorem Response.field_ob0 {r : Response} {h : BitVec 16} (hr : r.hdrOut = some h) :
    r.field .ob0 = some (.word 8 (h.toNat / 256)) := by
  rw [Response.field, hr, Option.map_some, wordValue, headerByte0_toNat]

theorem Response.field_ob1 {r : Response} {h : BitVec 16} (hr : r.hdrOut = some h) :
    r.field .ob1 = some (.word 8 (h.toNat % 256)) := by
  rw [Response.field, hr, Option.map_some, wordValue, headerByte1_toNat]

/-- Settles O28: the header delivered is the four fields joined, whose value `Header.pack_toNat` gives. -/
theorem hdrPackOperation : Obligations.HdrPackOperation := by
  unfold Obligations.HdrPackOperation
  intro f n t c s
  exact ⟨Header.pack ⟨f, n, t, c⟩, Header.pack_toNat _, exec_hdrPack f n t c s, Response.field_ob0 rfl, Response.field_ob1 rfl⟩

/-- The four fields of R69 lie side by side, so that joined again they are the whole value (R70). -/
@[simp] theorem Header.pack_unpack (v : BitVec 16) : (Header.unpack v).pack = v := by
  have hjoin (start low high : Nat) : v.extractLsb' (start + low) high ++ v.extractLsb' start low =
      v.extractLsb' start (high + low) := BitVec.extractLsb'_append_extractLsb'_eq_extractLsb' rfl
  calc (Header.unpack v).pack
    _ = v.extractLsb' 13 3 ++ v.extractLsb' 9 4 ++ v.extractLsb' 4 5 ++ v.extractLsb' 0 4 := rfl
    _ = v.extractLsb' 9 7 ++ v.extractLsb' 4 5 ++ v.extractLsb' 0 4 := by rw [hjoin 9 4 3]
    _ = v.extractLsb' 4 12 ++ v.extractLsb' 0 4 := by rw [hjoin 4 5 7]
    _ = v.extractLsb' 0 16 := hjoin 0 4 12
    _ = v := BitVec.extractLsb'_eq_self

/-- Settles O30: each operation delivers one of the two functions of the header format, and these undo one another. -/
theorem hdrPackAndUnpackAreInverse : Obligations.HdrPackAndUnpackAreInverse := by
  unfold Obligations.HdrPackAndUnpackAreInverse
  constructor
  · intro f n t c s
    refine ⟨Header.pack ⟨f, n, t, c⟩, _, _, exec_hdrPack f n t c s, rfl, exec_hdrUnpack _ _, ?_⟩
    simp only [State.deliver_response, Header.unpack_pack, and_self]
  · intro v s
    refine ⟨_, _, _, _, _, _, exec_hdrUnpack v s, rfl, rfl, rfl, rfl, exec_hdrPack _ _ _ _ _, ?_⟩
    exact congrArg some (Header.pack_unpack v)

/-- R69: each field is the value shifted right and cut to the field's width. -/
theorem Header.unpack_eq (v : BitVec 16) :
    Header.unpack v = ⟨BitVec.ofNat 3 (v.toNat / 2 ^ 13), BitVec.ofNat 4 (v.toNat / 2 ^ 9),
      BitVec.ofNat 5 (v.toNat / 2 ^ 4), BitVec.ofNat 4 v.toNat⟩ := by
  simp only [Header.unpack, BitVec.extractLsb', Nat.shiftRight_eq_div_pow, Nat.pow_zero, Nat.div_one]

/-- Settles O29: the fields delivered are those of `Header.unpack`. -/
theorem hdrUnpackOperation : Obligations.HdrUnpackOperation := by
  unfold Obligations.HdrUnpackOperation
  intro v s
  rw [exec_hdrUnpack, Header.unpack_eq]
  rfl

/-! ## The crc4 nibble inside a packet -/

/-- R13: a write of one byte inside a sequence. -/
theorem memWrite_singleton {O : Bytes} {off : Nat} (h : off < O.length) (b : Byte) :
    memWrite O off [b] = .ok (O.set off b) := by
  rw [memWrite_ok O off [b] h, List.set_eq_take_cons_drop b h, List.append_assoc, List.singleton_append, List.length_singleton]

/-- R71: the write of the nibble sets one byte, the packet's second. -/
theorem insertCrc_eq_set {S : Bytes} {p : Nat} {b1 : Byte} (h : S[p + 1]? = some b1) (c : BitVec 4) :
    insertCrc S p c = .ok (S.set (p + 1) (setCrcNibble b1 c)) := by
  obtain ⟨hlt, -⟩ := List.getElem?_eq_some_iff.1 h
  rw [insertCrc, readByte_ok h]
  exact memWrite_singleton hlt _

/-- The mask of R71 keeps the high nibble, and the OR adds nothing to it. -/
theorem setCrcNibble_high (b1 : Byte) (c : BitVec 4) : (setCrcNibble b1 c).extractLsb' 4 4 = b1.extractLsb' 4 4 := by
  have hmask : (0xF0#8).extractLsb' 4 4 = BitVec.allOnes 4 := rfl
  have hcrc : (c.setWidth 8).extractLsb' 4 4 = 0#4 := by
    ext i hi
    simp
  rw [setCrcNibble, BitVec.extractLsb'_or, BitVec.extractLsb'_and, hmask, hcrc, BitVec.and_allOnes, BitVec.or_zero]

/-- The mask of R71 clears the low nibble, and the OR puts the CRC there. -/
theorem setCrcNibble_low (b1 : Byte) (c : BitVec 4) : (setCrcNibble b1 c).extractLsb' 0 4 = c := by
  have hmask : (0xF0#8).extractLsb' 0 4 = 0#4 := rfl
  have hcrc : (c.setWidth 8).extractLsb' 0 4 = c := by
    rw [BitVec.extractLsb'_setWidth_of_le (by decide), BitVec.extractLsb'_eq_self]
  rw [setCrcNibble, BitVec.extractLsb'_or, BitVec.extractLsb'_and, hmask, hcrc, BitVec.and_zero, BitVec.zero_or]

/-- Settles O34: only the packet's second byte is set, and only its low nibble. -/
theorem crcNibbleInsert : Obligations.CrcNibbleInsert := by
  unfold Obligations.CrcNibbleInsert
  refine ⟨fun S p c b1 hb1 => ?_, insertCrc_header⟩
  obtain ⟨hlt, -⟩ := List.getElem?_eq_some_iff.1 hb1
  exact ⟨S.set (p + 1) (setCrcNibble b1 c), insertCrc_eq_set hb1 c, List.length_set, fun j hj => List.getElem?_set_ne hj.symm,
    List.getElem?_set_self hlt, setCrcNibble_high b1 c, setCrcNibble_low b1 c⟩

end Sys2Proof.Machine

/-! PROOFS. CHUNK (spec/42_chunker.md R73 to R76): the ranges it reports, and that they lie one behind the other over the text. -/

namespace Sys2Proof.Machine

/-! ## The operation -/

/-- R75: the response of a CHUNK within the capacity. -/
def chunkResponse (len : Nat) : Response :=
  { Response.ok with nChunks := some (chunkCount len), chunks := some (chunkRanges len) }

theorem exec_chunk_within {text : Bytes} {s : State} (hfits : text.length ≤ s.capacity.maxTextLen) :
    exec (.chunk text) s = .next (s.deliver (chunkResponse text.length)) := by
  rw [exec_eq_answer, respond, if_neg (Nat.not_lt.2 hfits), State.answer_ok, chunkResponse]

theorem exec_chunk_beyond {text : Bytes} {s : State} (hbeyond : s.capacity.maxTextLen < text.length) :
    exec (.chunk text) s = .refused .textBeyondCapacity := by
  rw [exec_eq_answer, respond, if_pos hbeyond, State.answer_error]

/-- A CHUNK that completes is one within the capacity. -/
theorem exec_chunk_next {text : Bytes} {s t : State} (h : exec (.chunk text) s = .next t) :
    t = s.deliver (chunkResponse text.length) := by
  rcases Nat.lt_or_ge s.capacity.maxTextLen text.length with hbeyond | hfits
  · rw [exec_chunk_beyond hbeyond] at h
    cases h
  · rw [exec_chunk_within hfits] at h
    cases h
    rfl

/-- Settles O38: `chunkRanges` is the closed form of R73. -/
theorem chunkOperation : Obligations.ChunkOperation := by
  unfold Obligations.ChunkOperation
  exact fun text s => ⟨exec_chunk_within, exec_chunk_beyond⟩

/-! ## The ranges -/

theorem chunkRanges_getElem?_eq_some_iff {L i : Nat} {r : Nat × Nat} :
    (chunkRanges L)[i]? = some r ↔ i < chunkCount L ∧ r = (chunkOff i, chunkLen L i) := by
  simp only [chunkRanges, List.getElem?_eq_some_iff, List.length_map, List.length_range, List.getElem_map, List.getElem_range,
    exists_prop, eq_comm (b := r)]

theorem mem_chunkRanges_iff {L : Nat} {r : Nat × Nat} :
    r ∈ chunkRanges L ↔ ∃ i < chunkCount L, (chunkOff i, chunkLen L i) = r := by
  simp [chunkRanges]

/-- R73: a chunk that ends inside the text is full. -/
theorem chunkLen_eq_maxChunk {L i : Nat} (h : 31 * (i + 1) ≤ L) : chunkLen L i = 31 := by
  rw [chunkLen_eq]
  omega

/-- R76: each chunk starts where the one before ends, since only the last can be short. -/
theorem chunkOff_succ {L i : Nat} (h : i + 1 < chunkCount L) : chunkOff (i + 1) = chunkOff i + chunkLen L i := by
  rw [chunkCount_eq] at h
  rw [chunkLen_eq_maxChunk (by omega), chunkOff_eq, chunkOff_eq, Nat.mul_succ]

/-- The bytes of the first `k` chunks are the text up to where chunk `k` would start. -/
theorem flatMap_slice_chunks (text : Bytes) (k : Nat) :
    ((List.range k).flatMap fun i => slice text (chunkOff i, chunkLen text.length i)) = text.take (31 * k) := by
  induction k with
  | zero => rfl
  | succ k ih =>
    have hchunk : slice text (chunkOff k, chunkLen text.length k) = (text.drop (31 * k)).take 31 := by
      rw [slice, chunkOff_eq, chunkLen_eq, ← List.length_drop, ← List.take_eq_take_min]
    rw [List.range_succ, List.flatMap_append, ih, List.flatMap_singleton, hchunk, Nat.mul_succ, List.take_add]

/-- R76: the chunks' bytes, joined, are the text. -/
theorem flatMap_slice_chunkRanges (text : Bytes) : (chunkRanges text.length).flatMap (slice text) = text := by
  rw [chunkRanges, List.flatMap_map, flatMap_slice_chunks, List.take_of_length_le]
  rw [chunkCount_eq]
  omega

/-- R76: the lengths of the chunks are those of their bytes, which are the text's bytes. -/
theorem chunkRanges_sum_lengths (text : Bytes) : ((chunkRanges text.length).map (·.2)).sum = text.length := by
  have hlength : (chunkRanges text.length).map (·.2) = (chunkRanges text.length).map fun r => (slice text r).length := by
    refine List.map_congr_left fun r hr => ?_
    obtain ⟨i, -, rfl⟩ := mem_chunkRanges_iff.1 hr
    exact (slice_chunk_length text i).symm
  rw [hlength, ← List.length_flatMap, flatMap_slice_chunkRanges]

/-- Settles O39: each part is a fact about the ranges of R73, the number of which is at least 1 for a text that is not empty. -/
theorem chunksCoverTheText : Obligations.ChunksCoverTheText := by
  unfold Obligations.ChunksCoverTheText
  intro text s t l hnonempty hexec hl
  obtain rfl := exec_chunk_next hexec
  obtain rfl : chunkRanges text.length = l := Option.some.inj hl
  have hcount : 0 < chunkCount text.length := by
    rw [chunkCount_eq]
    omega
  refine ⟨?atLeastOne, chunkRanges_sum_lengths text, fun i a b ha hb => ?contiguous, fun r hr => ?lengths, ?start,
    flatMap_slice_chunkRanges text⟩
  case atLeastOne => rwa [chunkRanges_length]
  case contiguous =>
    obtain ⟨-, rfl⟩ := chunkRanges_getElem?_eq_some_iff.1 ha
    obtain ⟨hi, rfl⟩ := chunkRanges_getElem?_eq_some_iff.1 hb
    exact chunkOff_succ hi
  case lengths =>
    obtain ⟨i, hi, rfl⟩ := mem_chunkRanges_iff.1 hr
    obtain ⟨hmin, hmax, -⟩ := chunk_bounds hi
    exact ⟨hmin, hmax⟩
  case start => rw [chunkRanges_getElem?_eq_some_iff.2 ⟨hcount, rfl⟩, Option.map_some, chunkOff_eq]

/-! ## Exact multiples of 31 -/

/-- The ranges of `k` full chunks, as R73 gives them for every text that holds them. -/
def fullRanges (k : Nat) : List (Nat × Nat) := (List.range k).map fun i => (chunkOff i, 31)

theorem fullRanges_length (k : Nat) : (fullRanges k).length = k := by
  rw [fullRanges, List.length_map, List.length_range]

theorem snd_of_mem_fullRanges {k : Nat} {r : Nat × Nat} (h : r ∈ fullRanges k) : r.2 = 31 := by
  obtain ⟨i, -, rfl⟩ := List.mem_map.1 h
  rfl

theorem map_chunks_eq_fullRanges {L k : Nat} (h : 31 * k ≤ L) :
    ((List.range k).map fun i => (chunkOff i, chunkLen L i)) = fullRanges k := by
  refine List.map_congr_left fun i hi => ?_
  have hik : i < k := List.mem_range.1 hi
  rw [chunkLen_eq_maxChunk (by omega)]

theorem chunkCount_mul (k : Nat) : chunkCount (31 * k) = k := by
  rw [chunkCount_eq]
  omega

theorem chunkCount_mul_add_one (k : Nat) : chunkCount (31 * k + 1) = k + 1 := by
  rw [chunkCount_eq]
  omega

/-- R74: no range stands behind the full ones. -/
theorem chunkRanges_mul (k : Nat) : chunkRanges (31 * k) = fullRanges k := by
  rw [chunkRanges, chunkCount_mul, map_chunks_eq_fullRanges (Nat.le_refl _)]

/-- R74: one byte more stands in a range of its own. -/
theorem chunkRanges_mul_add_one (k : Nat) : chunkRanges (31 * k + 1) = fullRanges k ++ [(31 * k, 1)] := by
  have hlast : chunkLen (31 * k + 1) k = 1 := by
    rw [chunkLen_eq]
    omega
  rw [chunkRanges, chunkCount_mul_add_one, List.range_succ, List.map_append, map_chunks_eq_fullRanges (Nat.le_succ _),
    List.map_singleton, hlast, chunkOff_eq]

/-- Settles O40: CHUNK reports `k` full ranges, and one byte more adds the range of that byte. -/
theorem noTrailingEmptyChunk : Obligations.NoTrailingEmptyChunk := by
  unfold Obligations.NoTrailingEmptyChunk
  intro text k s hfits _
  have hexec := exec_chunk_within hfits
  constructor
  · intro hL
    rw [hL, chunkResponse, chunkCount_mul, chunkRanges_mul] at hexec
    exact ⟨_, fullRanges k, hexec, rfl, rfl, fullRanges_length k, fun r => snd_of_mem_fullRanges⟩
  · intro hL
    rw [hL, chunkResponse, chunkCount_mul_add_one, chunkRanges_mul_add_one] at hexec
    exact ⟨_, fullRanges k, hexec, rfl, rfl, fullRanges_length k, fun r => snd_of_mem_fullRanges⟩

end Sys2Proof.Machine

/-! PROOFS. ENCODE (spec/43_encoder.md R77 to R82): its refusals, its checks and its output, the places of the packets in the
output, and that DECODE gives the message back; and which requests of all the operations are refused (spec/60_exceptions.md R100). -/

namespace Sys2Proof.Machine

/-! ## The operation -/

/-- R80: the response of an ENCODE that succeeds. -/
def encodeResponse (name text : Bytes) : Response := { Response.ok with out := some (encodeMessage name text) }

theorem exec_encode_beyond_text {name text : Bytes} {s : State} (hbeyond : s.capacity.maxTextLen < text.length) :
    exec (.encode name text) s = .refused .textBeyondCapacity := by
  rw [exec_eq_answer, respond, if_pos hbeyond, State.answer_error]

/-- R77: a check that fails is the whole answer, whatever the output would be. -/
theorem exec_encode_invalid {name text : Bytes} {s : State} {e : ErrorCode} (hfits : text.length ≤ s.capacity.maxTextLen)
    (hcheck : checkMessage name text = some e) : exec (.encode name text) s = .next (s.abort e) := by
  rw [exec_eq_answer, respond, if_neg (Nat.not_lt.2 hfits), hcheck]
  rfl

theorem exec_encode_beyond_output {name text : Bytes} {s : State} (hfits : text.length ≤ s.capacity.maxTextLen)
    (hcheck : checkMessage name text = none) (hbeyond : s.capacity.maxBufLen < encodedLength name.length text.length) :
    exec (.encode name text) s = .refused .outputBeyondCapacity := by
  rw [exec_eq_answer, respond, if_neg (Nat.not_lt.2 hfits), hcheck]
  simp only [if_pos hbeyond, State.answer_error]

theorem exec_encode_within {name text : Bytes} {s : State} (hfits : text.length ≤ s.capacity.maxTextLen)
    (hcheck : checkMessage name text = none) (hout : encodedLength name.length text.length ≤ s.capacity.maxBufLen) :
    exec (.encode name text) s = .next (s.deliver (encodeResponse name text)) := by
  rw [exec_eq_answer, respond, if_neg (Nat.not_lt.2 hfits), hcheck]
  simp only [if_neg (Nat.not_lt.2 hout), State.answer_ok, encodeResponse]

/-- An ENCODE that answers with an output is one of a valid message. -/
theorem exec_encode_out {name text out : Bytes} {s t : State} (h : exec (.encode name text) s = .next t)
    (hout : t.response.out = some out) : checkMessage name text = none ∧ out = encodeMessage name text := by
  rcases Nat.lt_or_ge s.capacity.maxTextLen text.length with hbeyond | hfits
  · rw [exec_encode_beyond_text hbeyond] at h
    cases h
  cases hcheck : checkMessage name text with
  | some e =>
    rw [exec_encode_invalid hfits hcheck] at h
    cases h
    cases hout
  | none =>
    rcases Nat.lt_or_ge s.capacity.maxBufLen (encodedLength name.length text.length) with hbeyond | hwithin
    · rw [exec_encode_beyond_output hfits hcheck hbeyond] at h
      cases h
    · rw [exec_encode_within hfits hcheck hwithin] at h
      cases h
      cases hout
      exact ⟨rfl, rfl⟩

/-- DECODE of a buffer within the capacity whose packets are valid (R94). -/
theorem exec_decode_ok {buf : Bytes} {m : Bytes × Bytes} {s : State} (hfits : buf.length ≤ s.capacity.maxBufLen)
    (hm : decodeMessage buf = .ok m) :
    exec (.decode buf) s = .next (s.deliver { Response.ok with dName := some m.1, dText := some m.2 }) := by
  rw [exec_eq_answer, respond, if_neg (Nat.not_lt.2 hfits), hm]
  rfl

/-! ## A packet read back -/

/-- R72: the zeroing of the nibble is the insertion of 0. -/
theorem clearCrcNibble_eq_setCrcNibble (b1 : Byte) : clearCrcNibble b1 = setCrcNibble b1 0x0#4 := by
  rw [setCrcNibble, BitVec.setWidth_zero, BitVec.or_zero, clearCrcNibble]

/-- The header's name length, which a name of at most 15 bytes fits (R78). -/
theorem packetHeader_nameLen {name : Bytes} (hname : name.length ≤ 15) (chunk : Bytes) :
    (packetHeader name chunk).nameLen.toNat = name.length :=
  Nat.mod_eq_of_lt (by omega)

/-- The header's text length, which a chunk of at most 31 bytes fits (R78). -/
theorem packetHeader_textLen {chunk : Bytes} (hchunk : chunk.length ≤ 31) (name : Bytes) :
    (packetHeader name chunk).textLen.toNat = chunk.length :=
  Nat.mod_eq_of_lt (by omega)

/-- The packet as two header bytes and what is behind them. -/
theorem packet_eq_cons (name chunk : Bytes) :
    packet name chunk =
      headerByte0 (packetHeader name chunk).pack :: headerByte1 (packetHeader name chunk).pack :: (name ++ chunk) :=
  rfl

/-- R53, R72: the CRC over a finished packet with its nibble zeroed is the one its header holds. -/
theorem crc4_packet_cleared (name chunk : Bytes) :
    crc4 ([headerByte0 (packetHeader name chunk).pack, clearCrcNibble (headerByte1 (packetHeader name chunk).pack)] ++
      (name ++ chunk)) = (packetHeader name chunk).crc4 := by
  rw [clearCrcNibble_eq_setCrcNibble, setCrcNibble_header, packetHeader, headerByte0_crc4, ← List.append_assoc]
  rfl

@[simp] theorem packetsOf_nil : packetsOf [] = .ok [] := by
  rw [packetsOf, splitPackets]

/-- R86 to R92: a finished packet passes the checks, and its name and chunk are taken from it. -/
theorem packetsOf_packet {name chunk : Bytes} (hname : name.length ≤ 15) (hchunk : chunk.length ≤ 31) :
    packetsOf (packet name chunk) = .ok [(name, chunk)] := by
  have hflag : (packetHeader name chunk).flag = Config.flag := rfl
  have hsize : name.length + chunk.length = (name ++ chunk).length := List.length_append.symm
  rw [packet_eq_cons, packetsOf_cons]
  simp only [Header.ofBytes_bytes, packetHeader_nameLen hname, packetHeader_textLen hchunk, hsize, List.take_length,
    List.drop_length, List.take_left, List.drop_left, crc4_packet_cleared, hflag, ne_eq, not_true_eq_false, if_false, lt_irrefl,
    packetsOf_nil]

/-- R93, R102: the packets of some chunks under one name are those chunks under that name. -/
theorem packetsOf_packets {name : Bytes} (hname : name.length ≤ 15) {chunks : List Bytes}
    (hchunks : ∀ c ∈ chunks, c.length ≤ 31) :
    packetsOf (chunks.flatMap (packet name)) = .ok (chunks.map fun c => (name, c)) := by
  induction chunks with
  | nil => exact packetsOf_nil
  | cons c cs ih =>
    obtain ⟨hc, hcs⟩ := List.forall_mem_cons.1 hchunks
    rw [List.flatMap_cons, packetsOf_append _ _ _ (packetsOf_packet hname hc), ih hcs]
    rfl

/-- R90, R91: the message of those packets is the name and the chunks joined. -/
theorem messageOf_chunks (name : Bytes) {chunks : List Bytes} (h : chunks ≠ []) :
    messageOf (chunks.map fun c => (name, c)) = (name, chunks.flatten) := by
  cases chunks with
  | nil => exact absurd rfl h
  | cons c cs => simp [messageOf, Function.comp_def]

/-! ## The round trip -/

/-- The chunks of a text, in order (R73). -/
def textChunks (text : Bytes) : List Bytes := (chunkRanges text.length).map (slice text)

theorem encodeMessage_eq_flatMap (name text : Bytes) : encodeMessage name text = (textChunks text).flatMap (packet name) := by
  rw [textChunks, List.flatMap_map, encodeMessage]

theorem textChunks_flatten (text : Bytes) : (textChunks text).flatten = text := by
  rw [textChunks, ← List.flatMap_def, flatMap_slice_chunkRanges]

theorem length_le_of_mem_textChunks {text c : Bytes} (h : c ∈ textChunks text) : c.length ≤ 31 := by
  obtain ⟨r, hr, rfl⟩ := List.mem_map.1 h
  obtain ⟨i, hi, rfl⟩ := mem_chunkRanges_iff.1 hr
  rw [slice_chunk_length]
  exact (chunk_bounds hi).2.1

/-- R82: the packets of ENCODE's output decode to the message. -/
theorem decodeMessage_encodeMessage {name text : Bytes} (hname : name.length ≤ 15) (htext : 1 ≤ text.length) :
    decodeMessage (encodeMessage name text) = .ok (name, text) := by
  have hlong : 2 ≤ (encodeMessage name text).length := by
    have hcount : 1 ≤ chunkCount text.length := by
      rw [chunkCount_eq]
      omega
    have hfirst := Nat.mul_le_mul_right (2 + name.length) hcount
    rw [encodeMessage_length, encodedLength]
    omega
  have hchunks : textChunks text ≠ [] := by
    intro h
    rw [← textChunks_flatten text, h] at htext
    exact absurd htext (by decide)
  rw [decodeMessage, if_neg (Nat.not_lt.2 hlong), encodeMessage_eq_flatMap,
    packetsOf_packets hname fun c => length_le_of_mem_textChunks]
  simp only [messageOf_chunks name hchunks, textChunks_flatten]

/-- Settles O44: the output is decoded from the state that ENCODE leaves, which has the same capacities. -/
theorem encodeThenDecodeRoundTrip : Obligations.EncodeThenDecodeRoundTrip := by
  unfold Obligations.EncodeThenDecodeRoundTrip
  intro name text s hpos hname htext hfits hout
  have hvalid : checkMessage name text = none := (checkMessage_none_iff name text).2 ⟨hpos, hname, htext⟩
  have hbuf : (encodeMessage name text).length ≤ s.capacity.maxBufLen := by rwa [encodeMessage_length]
  exact ⟨_, _, _, exec_encode_within hfits hvalid hout, rfl, rfl,
    exec_decode_ok hbuf (decodeMessage_encodeMessage hname htext), rfl, rfl, rfl⟩

/-! ## The output -/

/-- The bytes of chunk `i`, the last of which may be short (R73). -/
theorem slice_chunk_eq (text : Bytes) (i : Nat) :
    slice text (chunkOff i, chunkLen text.length i) = (text.drop (31 * i)).take 31 := by
  rw [slice, chunkOff_eq, chunkLen_eq, ← List.length_drop, ← List.take_eq_take_min]

/-- R78: a packet is built with the nibble zero, and the CRC of all of it is put into the nibble. -/
theorem packet_eq_setCrcNibble (name chunk : Bytes) :
    packet name chunk =
      let H0 := (preCrcHeader name.length chunk.length).pack
      let c := crc4 ([headerByte0 H0, headerByte1 H0] ++ name ++ chunk)
      [headerByte0 H0, setCrcNibble (headerByte1 H0) c] ++ name ++ chunk := by
  rw [packet, packetHeader, Header.bytes, headerByte0_crc4, ← setCrcNibble_header]
  rfl

/-- Settles O42: the packets of the output are those of R78, and the length that R80 compares is the output's. -/
theorem encodeOperation : Obligations.EncodeOperation := by
  unfold Obligations.EncodeOperation
  intro name text s
  refine ⟨exec_encode_beyond_text, fun hfits hpos hname htext => ?_⟩
  have hvalid : checkMessage name text = none := (checkMessage_none_iff name text).2 ⟨hpos, hname, htext⟩
  refine ⟨exec_encode_beyond_output hfits hvalid, fun hout => ?_⟩
  rw [exec_encode_within hfits hvalid hout, encodeResponse, encodeMessage, chunkRanges, List.flatMap_map]
  simp only [packet_eq_setCrcNibble]
  rfl

/-- R81: packet `i` of the output stands behind `i` full packets. -/
theorem encodeMessage_split (name text : Bytes) {i : Nat} (hi : i < chunkCount text.length) :
    ∃ before behind, encodeMessage name text = before ++ packet name ((text.drop (31 * i)).take 31) ++ behind ∧
      before.length = i * (2 + name.length + 31) := by
  obtain ⟨k, hk⟩ := Nat.exists_eq_add_of_le (Nat.succ_le_of_lt hi)
  rw [chunkCount_eq] at hi
  rw [encodeMessage, chunkRanges, List.flatMap_map, hk, List.range_add, List.range_succ, List.flatMap_append,
    List.flatMap_append, List.flatMap_singleton, slice_chunk_eq]
  refine ⟨_, _, rfl, ?_⟩
  rw [packets_length, Nat.min_eq_left (by omega), Nat.mul_add i (2 + name.length), Nat.mul_comm 31]

/-- Settles O43: an output is that of a valid message, whose packet `i` is found behind the `i` full ones. -/
theorem encodedBufferLayout : Obligations.EncodedBufferLayout := by
  unfold Obligations.EncodedBufferLayout
  intro name text out s t hexec hout
  obtain ⟨hvalid, rfl⟩ := exec_encode_out hexec hout
  obtain ⟨hpos, hname, htext⟩ := (checkMessage_none_iff name text).1 hvalid
  refine ⟨encodeMessage_length name text, fun i hi => ?_⟩
  obtain ⟨before, behind, hsplit, hoff⟩ := encodeMessage_split name text hi
  obtain ⟨hmin, hmax⟩ : 1 ≤ ((text.drop (31 * i)).take 31).length ∧ ((text.drop (31 * i)).take 31).length ≤ 31 := by
    simp only [List.length_take, List.length_drop]
    omega
  generalize (text.drop (31 * i)).take 31 = chunk at *
  refine ⟨headerByte0 (packetHeader name chunk).pack, headerByte1 (packetHeader name chunk).pack, chunk, rfl, ?packet, ?_⟩
  case packet =>
    rw [hsplit, ← hoff, List.append_assoc, List.drop_left, ← packet_length, List.take_left]
    rfl
  rw [Header.ofBytes_bytes, List.append_assoc]
  exact ⟨rfl, packetHeader_nameLen hname chunk, packetHeader_textLen hmax name, hpos, hname, hmin, hmax,
    (crc4_packet_cleared name chunk).symm⟩

/-! ## The checks -/

/-- Settles O41: the checks look at the name first, and the first that fails aborts the operation. -/
theorem encodeChecksInOrder : Obligations.EncodeChecksInOrder := by
  unfold Obligations.EncodeChecksInOrder
  intro name text s hfits
  refine ⟨fun hname => ?nameEmpty, fun hname => ?nameTooLong, fun hpos hname htext => ?textEmpty⟩
  case nameEmpty =>
    have hcheck : checkMessage name text = some .nameEmpty := if_pos hname
    exact exec_encode_invalid hfits hcheck
  case nameTooLong =>
    have hcheck : checkMessage name text = some .nameTooLong := by
      rw [checkMessage, if_neg (by omega), if_pos hname]
    exact exec_encode_invalid hfits hcheck
  case textEmpty =>
    have hcheck : checkMessage name text = some .textEmpty := by
      rw [checkMessage, if_neg (by omega), if_neg (Nat.not_lt.2 hname), if_pos htext]
    exact exec_encode_invalid hfits hcheck

/-! ## Refusals -/

open Sys2Proof.Safety

theorem exec_refused_iff {i : Instr} {s : State} {ρ : Refusal} :
    exec i s = .refused ρ ↔ respond s.capacity i = .error ρ := by
  rw [exec_eq_answer]
  cases respond s.capacity i <;> simp

/-- R80, R100: ENCODE is beyond the capacities by its text, or by the output of a valid message. -/
theorem beyondCapacity_encode_iff (c : Config.Capacity) (name text : Bytes) :
    beyondCapacity c (.encode name text) = true ↔ c.maxTextLen < text.length ∨
      checkMessage name text = none ∧ c.maxBufLen < encodedLength name.length text.length := by
  simp only [beyondCapacity, Bool.or_eq_true, Bool.and_eq_true, decide_eq_true_eq, checkMessage_none_iff, encodedLength,
    chunkCount_eq, and_assoc]

/-- R100: the transaction level refuses what is beyond the capacities. -/
theorem respond_error_iff (c : Config.Capacity) (i : Instr) :
    (∃ ρ, respond c i = .error ρ) ↔ beyondCapacity c i = true := by
  cases i with
  | crc4 data =>
    rw [respond, beyondCapacity]
    split <;> simp [*]
  | hdrPack f n t k => simp [respond, beyondCapacity]
  | hdrUnpack hdr => simp [respond, beyondCapacity]
  | chunk text =>
    rw [respond, beyondCapacity]
    split <;> simp [*]
  | encode name text =>
    rw [respond, beyondCapacity_encode_iff]
    split
    · simp [*]
    split
    · simp [*]
    split <;> simp [*]
  | decode buf =>
    rw [respond, beyondCapacity]
    split
    · simp [*]
    split <;> simp [*]

/-- Settles O17: an operation is refused where the transaction level's function of its request is. -/
theorem refusedExactlyBeyondCapacity : Obligations.RefusedExactlyBeyondCapacity := by
  unfold Obligations.RefusedExactlyBeyondCapacity
  intro i s
  rw [← respond_error_iff]
  exact exists_congr fun _ => exec_refused_iff

end Sys2Proof.Machine

/-! PROOFS. DECODE (spec/44_decoder.md R83 to R97): its answers for short buffers and for buffers beyond the capacity, the checks of
the packet at the cursor, what a packet that passes them adds to the message, and that a changed header is detected; and that every
operation within the capacities completes (R96, R119). -/

namespace Sys2Proof.Machine

open Sys2Proof.Safety

/-! ## The operation -/

theorem exec_decode_beyond {buf : Bytes} {s : State} (hbeyond : s.capacity.maxBufLen < buf.length) :
    exec (.decode buf) s = .refused .bufBeyondCapacity := by
  rw [exec_eq_answer, respond, if_pos hbeyond, State.answer_error]

/-- R103: a check that fails is the whole answer of DECODE. -/
theorem exec_decode_error {buf : Bytes} {e : ErrorCode} {s : State} (hfits : buf.length ≤ s.capacity.maxBufLen)
    (hm : decodeMessage buf = .error e) : exec (.decode buf) s = .next (s.abort e) := by
  rw [exec_eq_answer, respond, if_neg (Nat.not_lt.2 hfits), hm]
  rfl

theorem decodesTo_iff {s : State} {a name text : Bytes} :
    DecodesTo s a name text ↔ a.length ≤ s.capacity.maxBufLen ∧ decodeMessage a = .ok (name, text) := by
  constructor
  · rintro ⟨t, hexec, hstatus, hname, htext⟩
    rcases Nat.lt_or_ge s.capacity.maxBufLen a.length with hbeyond | hfits
    · rw [exec_decode_beyond hbeyond] at hexec
      cases hexec
    cases hm : decodeMessage a with
    | error e =>
      rw [exec_decode_error hfits hm] at hexec
      cases hexec
      exact absurd (Option.some.inj hstatus) e.status_ne_ok
    | ok m =>
      rw [exec_decode_ok hfits hm] at hexec
      cases hexec
      cases hname
      cases htext
      exact ⟨hfits, rfl⟩
  · rintro ⟨hfits, hm⟩
    exact ⟨_, exec_decode_ok hfits hm, rfl, rfl, rfl⟩

/-- Settles O46: the capacity is looked at before the buffer. -/
theorem decodeBeyondCapacityRefused : Obligations.DecodeBeyondCapacityRefused := by
  unfold Obligations.DecodeBeyondCapacityRefused
  intro buf s hbeyond
  exact exec_decode_beyond hbeyond

/-- Settles O45: no header fits into the buffer. -/
theorem decodeOfShortBuffer : Obligations.DecodeOfShortBuffer := by
  unfold Obligations.DecodeOfShortBuffer
  intro buf s hshort hfits
  exact exec_decode_error (e := .invalidBuffer) hfits (if_pos hshort)

/-! ## The packet at the cursor -/

/-- The bytes a header declares behind itself: those of the name and of the text (R51). -/
def Header.bodySize (h : Header) : Nat := h.nameLen.toNat + h.textLen.toNat

theorem Header.packetSize_eq (h : Header) : h.packetSize = 2 + h.bodySize := Nat.add_assoc _ _ _

/-- The three checks of the packet whose header is `b0`, `b1`, with `rest` behind the header (R87 to R89). -/
structure ChecksPass (b0 b1 : Byte) (rest : Bytes) : Prop where
  flag : (Header.ofBytes b0 b1).flag = Config.flag
  bound : (Header.ofBytes b0 b1).bodySize ≤ rest.length
  crc : crc4 ([b0, clearCrcNibble b1] ++ rest.take (Header.ofBytes b0 b1).bodySize) = (Header.ofBytes b0 b1).crc4

section Packet

variable {b0 b1 : Byte} {rest : Bytes}

/-- R85: one byte is no header. -/
@[simp] theorem packetsOf_singleton (b : Byte) : packetsOf [b] = .error .invalidBuffer := by
  rw [packetsOf, List.length_singleton, splitPackets]

/-- R87: the flag is checked before the size and the CRC. -/
theorem packetsOf_invalidFlag (hflag : (Header.ofBytes b0 b1).flag ≠ Config.flag) :
    packetsOf (b0 :: b1 :: rest) = .error .invalidFlag := by
  rw [packetsOf_cons]
  exact if_pos hflag

/-- R88: a packet that does not fit into the buffer, whatever its CRC. -/
theorem packetsOf_invalidBuffer (hflag : (Header.ofBytes b0 b1).flag = Config.flag)
    (hshort : rest.length < (Header.ofBytes b0 b1).bodySize) : packetsOf (b0 :: b1 :: rest) = .error .invalidBuffer := by
  rw [packetsOf_cons]
  exact (if_neg (not_not_intro hflag)).trans (if_pos hshort)

/-- R89: the CRC is checked last. -/
theorem packetsOf_invalidCrc (hflag : (Header.ofBytes b0 b1).flag = Config.flag)
    (hbound : (Header.ofBytes b0 b1).bodySize ≤ rest.length)
    (hcrc : crc4 ([b0, clearCrcNibble b1] ++ rest.take (Header.ofBytes b0 b1).bodySize) ≠ (Header.ofBytes b0 b1).crc4) :
    packetsOf (b0 :: b1 :: rest) = .error .invalidCrc := by
  rw [packetsOf_cons]
  exact (if_neg (not_not_intro hflag)).trans ((if_neg (Nat.not_lt.2 hbound)).trans (if_pos hcrc))

/-- R90 to R92: a packet that passes the checks stands before the packets behind it. -/
theorem packetsOf_of_checksPass (h : ChecksPass b0 b1 rest) :
    packetsOf (b0 :: b1 :: rest) = (packetsOf (rest.drop (Header.ofBytes b0 b1).bodySize)).map fun ps =>
      (rest.take (Header.ofBytes b0 b1).nameLen.toNat,
        (rest.drop (Header.ofBytes b0 b1).nameLen.toNat).take (Header.ofBytes b0 b1).textLen.toNat) :: ps := by
  obtain ⟨hflag, hbound, hcrc⟩ := h
  rw [packetsOf_cons]
  refine (if_neg (not_not_intro hflag)).trans ((if_neg (Nat.not_lt.2 hbound)).trans ((if_neg (not_not_intro hcrc)).trans ?_))
  rw [← Header.bodySize]
  cases packetsOf (rest.drop (Header.ofBytes b0 b1).bodySize) <;> rfl

/-- R102: a packet with which a run of valid packets starts passes the three checks. -/
theorem checksPass_of_packetsOf {ps : List (Bytes × Bytes)} (h : packetsOf (b0 :: b1 :: rest) = .ok ps) :
    ChecksPass b0 b1 rest := by
  have hflag : (Header.ofBytes b0 b1).flag = Config.flag := by
    by_contra hne
    rw [packetsOf_invalidFlag hne] at h
    cases h
  have hbound : (Header.ofBytes b0 b1).bodySize ≤ rest.length := by
    by_contra hshort
    rw [packetsOf_invalidBuffer hflag (Nat.not_le.1 hshort)] at h
    cases h
  refine ⟨hflag, hbound, ?_⟩
  by_contra hne
  rw [packetsOf_invalidCrc hflag hbound hne] at h
  cases h

theorem ne_nil_of_packetsOf_cons {ps : List (Bytes × Bytes)} (h : packetsOf (b0 :: b1 :: rest) = .ok ps) : ps ≠ [] := by
  rintro rfl
  rw [packetsOf_of_checksPass (checksPass_of_packetsOf h)] at h
  cases hps : packetsOf (rest.drop (Header.ofBytes b0 b1).bodySize) <;> rw [hps] at h <;> cases h

/-- A packet alone, with its name and its text told apart by its own header (R86, R91). -/
theorem packetsOf_single {name text : Bytes} (hflag : (Header.ofBytes b0 b1).flag = Config.flag)
    (hname : (Header.ofBytes b0 b1).nameLen.toNat = name.length) (htext : (Header.ofBytes b0 b1).textLen.toNat = text.length)
    (hcrc : crc4 ([b0, clearCrcNibble b1] ++ (name ++ text)) = (Header.ofBytes b0 b1).crc4) :
    packetsOf (b0 :: b1 :: (name ++ text)) = .ok [(name, text)] := by
  have hsize : (Header.ofBytes b0 b1).bodySize = (name ++ text).length := by
    rw [Header.bodySize, hname, htext, List.length_append]
  have hpass : ChecksPass b0 b1 (name ++ text) := ⟨hflag, hsize.le, by rwa [hsize, List.take_length]⟩
  rw [packetsOf_of_checksPass hpass, hsize, List.drop_length, packetsOf_nil, hname, htext, List.take_left, List.drop_left,
    List.take_length]
  rfl

end Packet

/-! ## The message of a buffer -/

theorem packetsOf_append_ok {a b : Bytes} {ps qs : List (Bytes × Bytes)} (ha : packetsOf a = .ok ps) (hb : packetsOf b = .ok qs) :
    packetsOf (a ++ b) = .ok (ps ++ qs) := by
  rw [packetsOf_append a b ps ha, hb]

theorem packetsOf_append_error {a b : Bytes} {ps : List (Bytes × Bytes)} {e : ErrorCode} (ha : packetsOf a = .ok ps)
    (hb : packetsOf b = .error e) : packetsOf (a ++ b) = .error e := by
  rw [packetsOf_append a b ps ha, hb]

/-- What stands behind a run of valid packets in a longer one is such a run itself. -/
theorem packetsOf_behind {a b : Bytes} {ps rs : List (Bytes × Bytes)} (ha : packetsOf a = .ok ps)
    (hab : packetsOf (a ++ b) = .ok rs) : ∃ qs, packetsOf b = .ok qs := by
  cases hb : packetsOf b with
  | ok qs => exact ⟨qs, rfl⟩
  | error e =>
    rw [packetsOf_append_error ha hb] at hab
    cases hab

/-- R83, R85: the check before the loop and the one inside it give the same error. -/
theorem decodeMessage_error {buf : Bytes} {e : ErrorCode} (h : packetsOf buf = .error e) : decodeMessage buf = .error e := by
  match buf with
  | [] => simp at h
  | [b] =>
    rw [packetsOf_singleton] at h
    cases h
    rfl
  | b0 :: b1 :: rest => rw [decodeMessage, if_neg (by simp), h]

/-- R83, R94: a buffer decodes where it is a run of valid packets with at least one. -/
theorem decodeMessage_ok_iff {buf : Bytes} {m : Bytes × Bytes} :
    decodeMessage buf = .ok m ↔ ∃ ps, packetsOf buf = .ok ps ∧ ps ≠ [] ∧ messageOf ps = m := by
  match buf with
  | [] => simp [decodeMessage]
  | [b] => simp [decodeMessage]
  | b0 :: b1 :: rest =>
    rw [decodeMessage, if_neg (by simp)]
    cases hps : packetsOf (b0 :: b1 :: rest) with
    | error e => simp
    | ok ps => simp [ne_nil_of_packetsOf_cons hps]

/-- R90, R91: the first name stays, and the texts are joined. -/
theorem messageOf_append {ps : List (Bytes × Bytes)} (hne : ps ≠ []) (qs : List (Bytes × Bytes)) :
    messageOf (ps ++ qs) = ((messageOf ps).1, (messageOf ps).2 ++ (messageOf qs).2) := by
  cases ps with
  | nil => exact absurd rfl hne
  | cons p ps => simp [messageOf]

/-- R93: valid packets behind a buffer that decodes add their texts to its message. -/
theorem decodeMessage_append {a b : Bytes} {m : Bytes × Bytes} {qs : List (Bytes × Bytes)} (ha : decodeMessage a = .ok m)
    (hb : packetsOf b = .ok qs) : decodeMessage (a ++ b) = .ok (m.1, m.2 ++ (messageOf qs).2) := by
  obtain ⟨ps, hps, hne, rfl⟩ := decodeMessage_ok_iff.1 ha
  exact decodeMessage_ok_iff.2
    ⟨ps ++ qs, packetsOf_append_ok hps hb, List.append_ne_nil_of_left_ne_nil hne qs, messageOf_append hne qs⟩

theorem packetsOf_of_validRun {s : State} {a : Bytes} (h : ValidRun s a) : ∃ ps, packetsOf a = .ok ps := by
  obtain rfl | ⟨name, text, hdec⟩ := h
  · exact ⟨_, packetsOf_nil⟩
  · obtain ⟨-, hm⟩ := decodesTo_iff.1 hdec
    obtain ⟨ps, hps, -⟩ := decodeMessage_ok_iff.1 hm
    exact ⟨ps, hps⟩

/-- R102: the error of a buffer is that of the first packet that fails, whatever valid packets stand before it. -/
theorem exec_decode_behind_validRun {a b : Bytes} {e : ErrorCode} {s : State} (ha : ValidRun s a)
    (hfits : (a ++ b).length ≤ s.capacity.maxBufLen) (hb : packetsOf b = .error e) :
    exec (.decode (a ++ b)) s = .next (s.abort e) := by
  obtain ⟨ps, hps⟩ := packetsOf_of_validRun ha
  exact exec_decode_error hfits (decodeMessage_error (packetsOf_append_error hps hb))

/-- Settles O47: the byte behind the run is no packet. -/
theorem loneTrailingByteIsInvalidBuffer : Obligations.LoneTrailingByteIsInvalidBuffer := by
  unfold Obligations.LoneTrailingByteIsInvalidBuffer
  intro a b s ha hfits
  exact exec_decode_behind_validRun ha (by simpa using hfits) (packetsOf_singleton b)

/-- Settles O48: each clause is one check's error, of the packet behind the run. -/
theorem packetChecksInOrder : Obligations.PacketChecksInOrder := by
  unfold Obligations.PacketChecksInOrder
  intro a rest b0 b1 s ha hfits
  simp only [Header.packetSize_eq, List.length_cons]
  refine ⟨fun hflag => ?flag, fun hflag hshort => ?bound, fun hflag hsize hcrc => ?crc⟩
  case flag => exact exec_decode_behind_validRun ha hfits (packetsOf_invalidFlag hflag)
  case bound => exact exec_decode_behind_validRun ha hfits (packetsOf_invalidBuffer hflag (by omega))
  case crc =>
    rw [Nat.add_sub_cancel_left] at hcrc
    exact exec_decode_behind_validRun ha hfits (packetsOf_invalidCrc hflag (by omega) hcrc)

/-- Settles O49: the packet alone is one packet, whose name and text are the message or whose text is added to it. -/
theorem validPacketIsAppended : Obligations.ValidPacketIsAppended := by
  unfold Obligations.ValidPacketIsAppended
  intro name text b0 b1 s hflag hname htext hcrc
  rw [List.append_assoc] at hcrc
  have hpacket : packetsOf ([b0, b1] ++ name ++ text) = .ok [(name, text)] := by
    rw [List.append_assoc]
    exact packetsOf_single hflag hname htext hcrc
  refine ⟨fun hfits => ?alone, fun a name0 text0 ha hfits => ?behind⟩
  case alone =>
    have hm : decodeMessage ([b0, b1] ++ name ++ text) = .ok (name, text) :=
      decodeMessage_ok_iff.2 ⟨_, hpacket, List.cons_ne_nil _ _, by simp [messageOf]⟩
    exact exec_decode_ok (by simp; omega) hm
  case behind =>
    obtain ⟨-, ha⟩ := decodesTo_iff.1 ha
    have hm : decodeMessage (a ++ [b0, b1] ++ name ++ text) = .ok (name0, text0 ++ text) := by
      simpa [messageOf] using decodeMessage_append ha hpacket
    exact exec_decode_ok (by simp; omega) hm

/-- Settles O50: the packets of the second buffer stand behind those of the first. -/
theorem concatenatedBuffersDecode : Obligations.ConcatenatedBuffersDecode := by
  unfold Obligations.ConcatenatedBuffersDecode
  intro a b name1 text1 name2 text2 s ha hb hfits
  obtain ⟨-, ha⟩ := decodesTo_iff.1 ha
  obtain ⟨-, hb⟩ := decodesTo_iff.1 hb
  obtain ⟨qs, hqs, -, hmsg⟩ := decodeMessage_ok_iff.1 hb
  refine decodesTo_iff.2 ⟨by rwa [List.length_append], ?_⟩
  rw [decodeMessage_append ha hqs, hmsg]

/-! ## A changed header -/

/-- Any two bytes are those of the header they hold (R31). -/
theorem exists_header_bytes (b0 b1 : Byte) : ∃ h : Header, b0 = headerByte0 h.pack ∧ b1 = headerByte1 h.pack := by
  refine ⟨Header.ofBytes b0 b1, ?_, ?_⟩ <;> rw [Header.ofBytes, Header.pack_unpack]
  · exact (BitVec.extractLsb'_append_eq_left).symm
  · exact (BitVec.extractLsb'_append_eq_right).symm

/-- R71: another nibble in byte1 is another crc4 field and changes no other field. -/
theorem Header.ofBytes_setCrcNibble (b0 b1 : Byte) (c : BitVec 4) :
    Header.ofBytes b0 (setCrcNibble b1 c) = { Header.ofBytes b0 b1 with crc4 := c } := by
  obtain ⟨h, rfl, rfl⟩ := exists_header_bytes b0 b1
  rw [setCrcNibble_header, ← headerByte0_crc4 h c, Header.ofBytes_bytes, headerByte0_crc4, Header.ofBytes_bytes]

theorem setCrcNibble_crc4 (b0 b1 : Byte) : setCrcNibble b1 (Header.ofBytes b0 b1).crc4 = b1 := by
  obtain ⟨h, rfl, rfl⟩ := exists_header_bytes b0 b1
  rw [setCrcNibble_header, Header.ofBytes_bytes]

/-- R72: the CRC is taken over the packet whatever its nibble holds. -/
theorem clearCrcNibble_setCrcNibble (b1 : Byte) (c : BitVec 4) : clearCrcNibble (setCrcNibble b1 c) = clearCrcNibble b1 := by
  obtain ⟨h, -, rfl⟩ := exists_header_bytes 0 b1
  simp only [clearCrcNibble_eq_setCrcNibble, setCrcNibble_header]

theorem clearCrcNibble_clearCrcNibble (b1 : Byte) : clearCrcNibble (clearCrcNibble b1) = clearCrcNibble b1 := by
  rw [clearCrcNibble_eq_setCrcNibble b1, clearCrcNibble_setCrcNibble, clearCrcNibble_eq_setCrcNibble]

/-- Bytes that differ in the low nibble only: one is the other with its own nibble put in. -/
theorem eq_setCrcNibble_of_clear_eq {b1 c1 : Byte} (b0 : Byte) (h : clearCrcNibble c1 = clearCrcNibble b1) :
    c1 = setCrcNibble b1 (Header.ofBytes b0 c1).crc4 := by
  have hset (k : BitVec 4) : setCrcNibble c1 k = setCrcNibble b1 k := congrArg (· ||| k.setWidth 8) h
  rw [← hset, setCrcNibble_crc4]

/-- R97: the one crc4 that a valid packet can hold is the one it holds. -/
theorem packetsOf_other_crc4 {b0 b1 c1 : Byte} {rest : Bytes} {ps : List (Bytes × Bytes)}
    (h : packetsOf (b0 :: b1 :: rest) = .ok ps) (hne : c1 ≠ b1) (hclear : clearCrcNibble c1 = clearCrcNibble b1) :
    packetsOf (b0 :: c1 :: rest) = .error .invalidCrc := by
  obtain ⟨hflag, hbound, hcrc⟩ := checksPass_of_packetsOf h
  obtain ⟨k, rfl⟩ : ∃ k, c1 = setCrcNibble b1 k := ⟨_, eq_setCrcNibble_of_clear_eq b0 hclear⟩
  have hk : (Header.ofBytes b0 b1).crc4 ≠ k := by
    rintro rfl
    exact hne (setCrcNibble_crc4 b0 b1)
  have hheader := Header.ofBytes_setCrcNibble b0 b1 k
  apply packetsOf_invalidCrc <;> rw [hheader]
  · exact hflag
  · exact hbound
  · rw [clearCrcNibble_setCrcNibble]
    exact hcrc.trans_ne hk

/-- R97 (c): zeroing the nibble changes no byte exactly where the nibble is zero. -/
theorem clearCrcNibble_eq_self_iff (b0 b1 : Byte) : clearCrcNibble b1 = b1 ↔ (Header.ofBytes b0 b1).crc4 = 0x0#4 := by
  rw [clearCrcNibble_eq_setCrcNibble]
  constructor
  · intro h
    rw [← h, Header.ofBytes_setCrcNibble]
  · intro h
    rw [← h, setCrcNibble_crc4]

/-- Settles O51: the packet at the cursor is a valid one, and its header is changed in the flag or in the nibble. -/
theorem headerCorruptionIsDetected : Obligations.HeaderCorruptionIsDetected := by
  unfold Obligations.HeaderCorruptionIsDetected
  intro a rest b0 b1 c0 c1 s ha hab
  obtain ⟨name, text, hdec⟩ : ∃ name text, DecodesTo s (a ++ b0 :: b1 :: rest) name text := hab.resolve_left (by simp)
  obtain ⟨hfits, hm⟩ := decodesTo_iff.1 hdec
  have hlength (x y : Byte) : (a ++ x :: y :: rest).length ≤ s.capacity.maxBufLen := by simpa using hfits
  obtain ⟨ps, hps⟩ := packetsOf_of_validRun ha
  obtain ⟨rs, hrs⟩ := packetsOf_of_validRun hab
  obtain ⟨qs, hqs⟩ := packetsOf_behind hps hrs
  have hnibble (x : Byte) (hne : x ≠ b1) (hclear : clearCrcNibble x = clearCrcNibble b1) :
      exec (.decode (a ++ b0 :: x :: rest)) s = .next (s.abort .invalidCrc) :=
    exec_decode_behind_validRun ha (hlength b0 x) (packetsOf_other_crc4 hqs hne hclear)
  refine ⟨fun hflag => ?flag, hnibble c1, ⟨fun hcrc => ?zeroed, fun hexec hzero => ?unchanged⟩,
    (clearCrcNibble_eq_self_iff b0 b1).2⟩
  case flag => exact exec_decode_behind_validRun ha (hlength c0 c1) (packetsOf_invalidFlag hflag)
  case zeroed => exact hnibble _ (mt (clearCrcNibble_eq_self_iff b0 b1).1 hcrc) (clearCrcNibble_clearCrcNibble b1)
  case unchanged =>
    have hsame : b1 &&& 0xF0#8 = b1 := (clearCrcNibble_eq_self_iff b0 b1).2 hzero
    rw [hsame, exec_decode_ok hfits hm] at hexec
    cases hexec

/-! ## Every operation -/

/-- Settles O16: an operation is answered or refused, and it is refused only beyond the capacities. -/
theorem admittedOperationsComplete : Obligations.AdmittedOperationsComplete := by
  unfold Obligations.AdmittedOperationsComplete
  intro i s hwithin
  cases hr : respond s.capacity i with
  | ok r => exact ⟨_, exec_next_iff.2 ⟨r, hr, rfl⟩⟩
  | error ρ =>
    have hbeyond : beyondCapacity s.capacity i = true := (respond_error_iff _ _).1 ⟨ρ, hr⟩
    rw [hwithin] at hbeyond
    cases hbeyond

end Sys2Proof.Machine

/-! PROOFS. Exceptions (spec/60_exceptions.md R99, R103): the error each operation may report, the step of a block without a request,
and the fault of a read of an unspecified response field. -/

namespace Sys2Proof.Machine

open Sys2Proof.Safety

/-! ## The errors of each operation -/

/-- R77: the operand checks give ENCODE's errors. -/
theorem mem_errorsOf_of_checkMessage {name text : Bytes} {e : ErrorCode} (h : checkMessage name text = some e) :
    e ∈ errorsOf (.encode name text) := by
  unfold checkMessage at h
  split at h
  · cases h
    simp [errorsOf]
  split at h
  · cases h
    simp [errorsOf]
  split at h <;> cases h
  simp [errorsOf]

/-- R102: the first packet that fails gives one of DECODE's errors; `errorsOf` looks at the operation and not at its buffer. -/
theorem mem_errorsOf_of_splitPackets {n : Nat} {buf : Bytes} {e : ErrorCode} (h : splitPackets n buf = .error e) :
    e ∈ errorsOf (.decode buf) := by
  induction n generalizing buf with
  | zero =>
    match buf with
    | [] => cases h
    | _ :: _ =>
      cases h
      simp [errorsOf]
  | succ n ih =>
    match buf with
    | [] => cases h
    | [_] =>
      cases h
      simp [errorsOf]
    | b0 :: b1 :: rest =>
      rw [splitPackets] at h
      split at h
      · cases h
        simp [errorsOf]
      split at h
      · cases h
        simp [errorsOf]
      split at h
      · cases h
        simp [errorsOf]
      split at h <;> cases h
      rename_i hbehind
      exact ih (buf := rest.drop _) hbehind

theorem mem_errorsOf_of_decodeMessage {buf : Bytes} {e : ErrorCode} (h : decodeMessage buf = .error e) :
    e ∈ errorsOf (.decode buf) := by
  unfold decodeMessage at h
  split at h
  · cases h
    simp [errorsOf]
  split at h <;> cases h
  rename_i hpackets
  exact mem_errorsOf_of_splitPackets hpackets

/-- R99: a response is OK, or it is that of an error of its operation. -/
theorem respond_ok_or_error {c : Config.Capacity} {i : Instr} {r : Response} (h : respond c i = .ok r) :
    r.status = some statusOk ∨ ∃ e ∈ errorsOf i, r = Response.error e := by
  cases i with
  | crc4 data =>
    rw [respond] at h
    split at h <;> cases h
    exact .inl rfl
  | hdrPack f n t k =>
    cases h
    exact .inl rfl
  | hdrUnpack hdr =>
    cases h
    exact .inl rfl
  | chunk text =>
    rw [respond] at h
    split at h <;> cases h
    exact .inl rfl
  | encode name text =>
    rw [respond] at h
    split at h
    · cases h
    split at h
    · rename_i e hcheck
      cases h
      exact .inr ⟨e, mem_errorsOf_of_checkMessage hcheck, rfl⟩
    split at h <;> cases h
    exact .inl rfl
  | decode buf =>
    rw [respond] at h
    split at h
    · cases h
    split at h <;> cases h
    · exact .inl rfl
    · rename_i e hm
      exact .inr ⟨e, mem_errorsOf_of_decodeMessage hm, rfl⟩

/-- Settles O22: the response exec delivers is the transaction level's, and an error's holds its status alone. -/
theorem errorsPerOperation : Obligations.ErrorsPerOperation := by
  unfold Obligations.ErrorsPerOperation
  refine ⟨fun i s t h => ?_, rfl, rfl, rfl, rfl, rfl, rfl, rfl⟩
  obtain ⟨r, hr, rfl⟩ := exec_next_iff.1 h
  exact respond_ok_or_error hr

/-! ## Waiting, and the read of a response field -/

theorem step_of_inbox_nil {s : State} (h : s.inbox = []) : step s = .next s := by
  simp [step, hostStep, h]

theorem readResponse_of_none {f : ResponseField} {s : State} (h : s.response.field f = none) :
    readResponse f s = .fault (.unspecifiedRead f) := by
  simp [readResponse, h]

theorem readResponse_of_some {f : ResponseField} {s : State} {v : FieldValue} (h : s.response.field f = some v) :
    readResponse f s = .next { s with hostRead := some v } := by
  simp [readResponse, h]

/-- Settles O8: the step of an empty inbox. -/
theorem idleBlockWaits : Obligations.IdleBlockWaits := by
  unfold Obligations.IdleBlockWaits
  intro s h
  exact step_of_inbox_nil h

/-- Settles O9: the step performs the read, which looks at the response as it stands. -/
theorem hostReadFaultsWhenUnspecified : Obligations.HostReadFaultsWhenUnspecified := by
  unfold Obligations.HostReadFaultsWhenUnspecified
  intro s f rest hinbox
  rw [step_of_inbox_cons hinbox]
  exact ⟨fun hnone => readResponse_of_none hnone, fun v hsome => readResponse_of_some hsome⟩

end Sys2Proof.Machine

/-! PROOFS. Requests that are none of R19, and reset (spec/70_reset_and_hazards.md R112, R114). -/

namespace Sys2Proof

/-! ## A row of R56 never rejects its cmd as reserved -/

theorem bind_ne_error {α β : Type} {x : Except DecodeError α} {f : α → Except DecodeError β} {e : DecodeError}
    (hx : x ≠ .error e) (hf : ∀ a, f a ≠ .error e) : (x >>= f) ≠ .error e := by
  cases x with
  | error e' => exact fun h => hx (by cases h; rfl)
  | ok a => exact hf a

section
variable (c : Byte)

theorem fieldOf_ne_reserved (w : Nat) (o : OperandName) (v : Nat) : fieldOf w o v ≠ .error (.reservedCmd c) := by
  unfold fieldOf
  split <;> nofun

theorem sequenceOf_ne_reserved (o : OperandName) (n : Nat) (bs : Bytes) : sequenceOf o n bs ≠ .error (.reservedCmd c) := by
  unfold sequenceOf
  split <;> nofun

variable (ops : List OperandValue)

theorem decodeCrc4_ne_reserved : decodeCrc4 ops ≠ .error (.reservedCmd c) := by
  unfold decodeCrc4
  split
  · exact bind_ne_error (sequenceOf_ne_reserved c _ _ _) nofun
  · nofun

theorem decodeHdrPack_ne_reserved : decodeHdrPack ops ≠ .error (.reservedCmd c) := by
  unfold decodeHdrPack
  split
  · refine bind_ne_error (fieldOf_ne_reserved c _ _ _) fun flag => ?_
    refine bind_ne_error (fieldOf_ne_reserved c _ _ _) fun nameLen => ?_
    refine bind_ne_error (fieldOf_ne_reserved c _ _ _) fun textLen => ?_
    exact bind_ne_error (fieldOf_ne_reserved c _ _ _) nofun
  · nofun

theorem decodeHdrUnpack_ne_reserved : decodeHdrUnpack ops ≠ .error (.reservedCmd c) := by
  unfold decodeHdrUnpack
  split <;> nofun

theorem decodeChunk_ne_reserved : decodeChunk ops ≠ .error (.reservedCmd c) := by
  unfold decodeChunk
  split
  · exact bind_ne_error (sequenceOf_ne_reserved c _ _ _) nofun
  · nofun

theorem decodeEncode_ne_reserved : decodeEncode ops ≠ .error (.reservedCmd c) := by
  unfold decodeEncode
  split
  · refine bind_ne_error (sequenceOf_ne_reserved c _ _ _) fun name => ?_
    refine bind_ne_error (sequenceOf_ne_reserved c _ _ _) fun text => ?_
    split <;> nofun
  · nofun

theorem decodeDecode_ne_reserved : decodeDecode ops ≠ .error (.reservedCmd c) := by
  unfold decodeDecode
  split
  · exact bind_ne_error (sequenceOf_ne_reserved c _ _ _) nofun
  · nofun

end

/-- The converse of `decode_reserved`: only a cmd that is none of R56's rows is rejected as reserved (R57). -/
theorem six_le_cmd_of_decode_reserved {r : EncodedRequest} {c : Byte} (h : decode r = .error (.reservedCmd c)) :
    6 ≤ r.cmd.toNat := by
  unfold decode at h
  split at h
  case h_1 => exact absurd h (decodeCrc4_ne_reserved _ _)
  case h_2 => exact absurd h (decodeHdrPack_ne_reserved _ _)
  case h_3 => exact absurd h (decodeHdrUnpack_ne_reserved _ _)
  case h_4 => exact absurd h (decodeChunk_ne_reserved _ _)
  case h_5 => exact absurd h (decodeEncode_ne_reserved _ _)
  case h_6 => exact absurd h (decodeDecode_ne_reserved _ _)
  case h_7 =>
    simp only [imp_false] at *
    omega

end Sys2Proof

namespace Sys2Proof.Machine

/-- A request of a defined cmd that does not decode breaks the host's duty of R114 and is refused. -/
theorem runRequest_malformed {r : EncodedRequest} {e : DecodeError} (hcmd : r.cmd.toNat ≤ 5) (h : decode r = .error e)
    (s : State) : runRequest r s = .refused (.malformedRequest e) := by
  cases e with
  | reservedCmd c =>
    have hreserved := six_le_cmd_of_decode_reserved h
    omega
  | _ => simp [runRequest, h]

/-- Settles O7: the step takes the request up, and the decoder's reason is no reserved cmd. -/
theorem malformedRequestIsRefused : Obligations.MalformedRequestIsRefused := by
  unfold Obligations.MalformedRequestIsRefused
  intro s r rest e hinbox hcmd hdecode
  rw [step_of_inbox_cons hinbox]
  exact runRequest_malformed hcmd hdecode _

/-! ## Reset -/

theorem runThenReset_of_next {r : EncodedRequest} {s t : State} (h : runRequest r s = .next t) :
    runThenReset r s = .next s.applyReset := by
  simp [runThenReset, h]

theorem runThenReset_of_refused {r : EncodedRequest} {s : State} {ρ : Refusal} (h : runRequest r s = .refused ρ) :
    runThenReset r s = .refused ρ := by
  simp [runThenReset, h]

/-- Settles O12: a request that reset cuts off ends as its own run does, with the reset block in place of a response. -/
theorem resetForgetsEverything : Obligations.ResetForgetsEverything := by
  unfold Obligations.ResetForgetsEverything
  intro s rest
  refine ⟨fun hinbox => ?reset, fun r t hinbox hrun => ?completed, fun r ρ hinbox hrun => ?refused⟩
  case reset => exact step_of_inbox_cons hinbox
  case completed =>
    rw [step_of_inbox_cons rfl] at hrun
    rw [step_of_inbox_cons hinbox]
    exact runThenReset_of_next hrun
  case refused =>
    rw [step_of_inbox_cons rfl] at hrun
    rw [step_of_inbox_cons hinbox]
    exact runThenReset_of_refused hrun

end Sys2Proof.Machine
